-- ==== Sys2Proof/Word.lean ====
section
/-! DEFINITION. The bit vectors the spec names: the register word (R9), the two float patterns (R66)
and the command packet (R54). The plain arithmetic on them is the library's. -/

namespace Sys2Proof

/-- A register word, "an unsigned 16-bit integer; the atomic unit of storage and transport" (R9). -/
abbrev Word := BitVec 16

/-- The bit pattern of a float32 (R66). -/
abbrev Bits32 := BitVec 32

/-- The bit pattern of a float64 (R66), and the width of the VIN and VOUT ports (R56). -/
abbrev Bits64 := BitVec 64

/-- The 40-bit command packet CMD (R54). -/
abbrev Packet := BitVec 40

end Sys2Proof
end

