-- ==== Sys2Proof/Config.lean ====
section
/-! DEFINITION. The word order, instants and lengths of time, and the configuration record CFG (R5, R7,
R22). The one opaque constant says which real numbers the named times are; no value an operation
computes is left undefined by the spec. -/

namespace Sys2Proof

/-- The word order, the document's "byte order" (R34). -/
inductive Order where
  | bigEndian
  | littleEndian
  deriving DecidableEq, Repr

/-! ### Times -/

/-- A real number of seconds (R7, R22, R24), as plain data: a rational number, a real number that
`Config.realTimes` gives by its name, or the sum or difference of two (log 4). -/
inductive Seconds where
  | rational (q : Rat)
  | real (name : Nat)
  | plus (x y : Seconds)
  | minus (x y : Seconds)
  deriving DecidableEq, Repr

/-- The real number that a time is, when the named ones are `reals`. -/
noncomputable def Seconds.valueIn (reals : Nat → ℝ) : Seconds → ℝ
  | .rational q => q
  | .real name => reals name
  | .plus x y => x.valueIn reals + y.valueIn reals
  | .minus x y => x.valueIn reals - y.valueIn reals

/-- Real numbers for the named times, and which of two times is the earlier. -/
structure RealTimes where
  reals : Nat → ℝ
  decideBefore : ∀ x y : Seconds, Decidable (x.valueIn reals < y.valueIn reals)

/-- The number that a time is when every named one is 0. -/
def Seconds.ratValue : Seconds → Rat
  | .rational q => q
  | .real _ => 0
  | .plus x y => x.ratValue + y.ratValue
  | .minus x y => x.ratValue - y.ratValue

theorem Seconds.valueIn_zero (x : Seconds) :
    x.valueIn (fun _ => ((0 : Rat) : ℝ)) = x.ratValue := by
  induction x <;> simp_all [Seconds.valueIn, Seconds.ratValue]

/-- Every named time is 0. -/
def rationalTimes : RealTimes where
  reals := fun _ => ((0 : Rat) : ℝ)
  decideBefore := fun x y => decidable_of_iff (x.ratValue < y.ratValue) (by
    rw [Seconds.valueIn_zero, Seconds.valueIn_zero]
    exact Rat.cast_lt.symm)

/-- Free: the real numbers the named times of this implementation are, or none where it names none
(log 4). -/
opaque Config.realTimes : Option RealTimes

/-- The real numbers of the named times. -/
def Config.times : RealTimes := Config.realTimes.getD rationalTimes

/-- The real number of seconds that a time is. -/
noncomputable def Seconds.value (x : Seconds) : ℝ := x.valueIn Config.times.reals

/-! ### CFG -/

/-- CFG, fixed at reset and constant afterwards (R22). -/
structure Cfg where
  /-- CFG.N, the number of register words of BANK. -/
  n : Nat
  /-- CFG.ORDER, which the hosts copy into the ORD field. -/
  order : Order
  /-- CFG.UPDATE_S, the writer host's sleep between ticks. -/
  updateS : Seconds
  /-- CFG.BACKOFF_S, the writer host's sleep in ErrorBackoff. -/
  backoffS : Seconds
  deriving DecidableEq, Repr

/-- The defaults of R5 and R30: 100 words, BigEndian, 1 s, 5 s. -/
def Cfg.default : Cfg :=
  { n := 100, order := .bigEndian, updateS := .rational 1, backoffS := .rational 5 }

/-- The bounds of R7: every address and count fits 16 bits, and both times are positive reals. -/
abbrev Cfg.wf (c : Cfg) : Prop :=
  c.n ≤ 65535 ∧ 0 < c.updateS.value ∧ 0 < c.backoffS.value

end Sys2Proof
end

