-- ==== Sys2Proof/Syntax.lean ====
section
/-! DEFINITION. The ten operations (R57), each with exactly the fields its packet leaves free (R58).
ADDR and COUNT are naturals, as R55 reads them. The data of an operation is on the ports (R56). -/

namespace Sys2Proof

/-- The operations of spec/opcode_table.json, one constructor per row. -/
inductive Instr where
  /-- ENCF32: float32 to two words (R67). -/
  | encf32 (order : Order)
  /-- DECF32: two words to float32 (R68). -/
  | decf32 (order : Order)
  /-- ENCF64: float64 to four words (R69). -/
  | encf64 (order : Order)
  /-- DECF64: four words to float64 (R70). -/
  | decf64 (order : Order)
  /-- ENCU16: a 16-bit value to one word (R75). -/
  | encu16
  /-- DECU16: one word to a 16-bit value (R76). -/
  | decu16
  /-- UNPK: partition and decode a slice of `count` words (R90). -/
  | unpk (order : Order) (count : Nat)
  /-- WRB: write `count` words from address `start` (R78). -/
  | wrb (start count : Nat)
  /-- RDR: read `count` words from address `start` (R79). -/
  | rdr (start count : Nat)
  /-- CTRPUB: publish the ten counters and advance K (R86). -/
  | ctrpub
  deriving DecidableEq, Repr

end Sys2Proof
end

