-- ==== Sys2Proof/WellFormed.lean ====
section
/-! DEFINITION. Which operations a packet can spell: ADDR and COUNT are 16-bit fields (R54, R55). -/

namespace Sys2Proof

/-- A natural that the 16-bit fields ADDR and COUNT can hold (R55: "naturals in 0..65535"). -/
def fits16 (x : Nat) : Bool := decide (x ≤ 65535)

/-- The operation's fields fit their places in the packet. -/
def Instr.wf : Instr → Bool
  | .encf32 _ => true
  | .decf32 _ => true
  | .encf64 _ => true
  | .decf64 _ => true
  | .encu16 => true
  | .decu16 => true
  | .unpk _ count => fits16 count
  | .wrb start count => fits16 start && fits16 count
  | .rdr start count => fits16 start && fits16 count
  | .ctrpub => true

end Sys2Proof
end

