-- ==== Sys2Proof/Decode.lean ====
section
/-! DEFINITION. The decoder of the 40-bit packet (R54, R55, R57, R59, R60), the encoder (R65), and
the match/mask table of R58. -/

namespace Sys2Proof

/-- OP, bits 39:36 (R54). -/
def opField (p : Packet) : BitVec 4 := p.extractLsb' 36 4

/-- RSV, bits 35:33, which must be 000 (R54). -/
def rsvField (p : Packet) : BitVec 3 := p.extractLsb' 33 3

/-- ORD, bit 32 (R54). -/
def ordField (p : Packet) : BitVec 1 := p.extractLsb' 32 1

/-- ADDR, bits 31:16 (R54). -/
def addrField (p : Packet) : BitVec 16 := p.extractLsb' 16 16

/-- COUNT, bits 15:0 (R54). -/
def countField (p : Packet) : BitVec 16 := p.extractLsb' 0 16

/-- ORD = 0 is BigEndian, ORD = 1 is LittleEndian (R54, R55). -/
def orderOfBit (b : BitVec 1) : Order :=
  if b = 1#1 then .littleEndian else .bigEndian

/-- The ORD bit of a word order (R54). -/
def bitOfOrder : Order → BitVec 1
  | .bigEndian => 0#1
  | .littleEndian => 1#1

/-- The operation, if every "fixed 0" field of its row is zero (R57, R59). -/
def whenZero (fixedFieldsAreZero : Bool) (i : Instr) : Option Instr :=
  if fixedFieldsAreZero then some i else none

/-- The operation a packet spells, or none for an illegal packet (R57, R59, R60). -/
def decode (p : Packet) : Option Instr :=
  let order := orderOfBit (ordField p)
  let ordZero := ordField p == 0#1
  let addrZero := addrField p == 0#16
  let countZero := countField p == 0#16
  let start := (addrField p).toNat
  let count := (countField p).toNat
  if rsvField p = 0#3 then
    match (opField p).toNat with
    | 0x1 => whenZero (addrZero && countZero) (.encf32 order)
    | 0x2 => whenZero (addrZero && countZero) (.decf32 order)
    | 0x3 => whenZero (addrZero && countZero) (.encf64 order)
    | 0x4 => whenZero (addrZero && countZero) (.decf64 order)
    | 0x5 => whenZero (ordZero && addrZero && countZero) .encu16
    | 0x6 => whenZero (ordZero && addrZero && countZero) .decu16
    | 0x7 => whenZero addrZero (.unpk order count)
    | 0x8 => whenZero ordZero (.wrb start count)
    | 0x9 => whenZero ordZero (.rdr start count)
    | 0xA => whenZero (ordZero && addrZero && countZero) .ctrpub
    | _ => none
  else none

/-- The instruction read from the low `nbits` bits of `w`, bit 0 the packet's bit 0. The packet is
one 40-bit word (R54): no order of bytes enters. -/
def decodeTableWord (nbits w : Nat) : Option Instr :=
  decode (BitVec.ofNat 40 (w % 2 ^ nbits))

/-- CMD = OP ++ 000 ++ ORD ++ ADDR ++ COUNT (R65). -/
def assemble (op : BitVec 4) (ord : BitVec 1) (addr count : BitVec 16) : Packet :=
  op ++ 0#3 ++ ord ++ addr ++ count

/-- The packet of an operation, the fields its syntax does not name set to zero (R65). -/
def encode : Instr → Packet
  | .encf32 o => assemble 0x1#4 (bitOfOrder o) 0#16 0#16
  | .decf32 o => assemble 0x2#4 (bitOfOrder o) 0#16 0#16
  | .encf64 o => assemble 0x3#4 (bitOfOrder o) 0#16 0#16
  | .decf64 o => assemble 0x4#4 (bitOfOrder o) 0#16 0#16
  | .encu16 => assemble 0x5#4 0#1 0#16 0#16
  | .decu16 => assemble 0x6#4 0#1 0#16 0#16
  | .unpk o count => assemble 0x7#4 (bitOfOrder o) 0#16 (BitVec.ofNat 16 count)
  | .wrb start count => assemble 0x8#4 0#1 (BitVec.ofNat 16 start) (BitVec.ofNat 16 count)
  | .rdr start count => assemble 0x9#4 0#1 (BitVec.ofNat 16 start) (BitVec.ofNat 16 count)
  | .ctrpub => assemble 0xA#4 0#1 0#16 0#16

/-- The operation's mnemonic (R57). -/
def Instr.mnemonic : Instr → String
  | .encf32 _ => "ENCF32"
  | .decf32 _ => "DECF32"
  | .encf64 _ => "ENCF64"
  | .decf64 _ => "DECF64"
  | .encu16 => "ENCU16"
  | .decu16 => "DECU16"
  | .unpk _ _ => "UNPK"
  | .wrb _ _ => "WRB"
  | .rdr _ _ => "RDR"
  | .ctrpub => "CTRPUB"

/-- A row of the match/mask table: a packet selects the row when its bits under `mask` are
`pattern` (R58). -/
structure OpRow where
  mnemonic : String
  pattern : Packet
  mask : Packet
  deriving DecidableEq, Repr

/-- The table of R58, row by row. `decode` does not read it: that the two agree is a theorem. -/
def opTable : List OpRow :=
  [ ⟨"ENCF32", 0x1000000000#40, 0xFEFFFFFFFF#40⟩,
    ⟨"DECF32", 0x2000000000#40, 0xFEFFFFFFFF#40⟩,
    ⟨"ENCF64", 0x3000000000#40, 0xFEFFFFFFFF#40⟩,
    ⟨"DECF64", 0x4000000000#40, 0xFEFFFFFFFF#40⟩,
    ⟨"ENCU16", 0x5000000000#40, 0xFFFFFFFFFF#40⟩,
    ⟨"DECU16", 0x6000000000#40, 0xFFFFFFFFFF#40⟩,
    ⟨"UNPK", 0x7000000000#40, 0xFEFFFF0000#40⟩,
    ⟨"WRB", 0x8000000000#40, 0xFF00000000#40⟩,
    ⟨"RDR", 0x9000000000#40, 0xFF00000000#40⟩,
    ⟨"CTRPUB", 0xA000000000#40, 0xFFFFFFFFFF#40⟩ ]

/-- The packet selects the row (R58). -/
def OpRow.selects (r : OpRow) (p : Packet) : Bool := p &&& r.mask == r.pattern

end Sys2Proof
end

