-- ==== Sys2Proof/Machine/State.lean ====
section
/-! DEFINITION. The machine's state: BANK and K, CFG, the ports, the hosts the spec describes, and
the schedule of what the hosts and the environment do next. Plain data throughout. -/

namespace Sys2Proof.Machine

/-- What the map `m` holds at each key it lists; an unlisted key has a value the reader names. -/
abbrev Sparse (α : Type) := List (Nat × α)

/-- The contents of BANK (R10): (address, register word) pairs. Canonical form: addresses strictly
rising, no word 0x0000; an unlisted address reads 0x0000 (R11, R30). A register word has no smaller
addressable part (R9, R31), so the cells are words and not bytes (log 1). -/
abbrev Memory := Sparse Word

/-- The place a host presents a command (R56, R123): the one writer port, a reader port, or a
client's own instance of the pure operations. -/
inductive Port where
  | writer
  | reader (j : Nat)
  | client (c : Nat)
  deriving DecidableEq, Repr

/-- One command as a host presents it (R54, R56). -/
structure Issue where
  /-- The issuing port. -/
  port : Port
  /-- CMD. -/
  cmd : Packet
  /-- VIN. -/
  vin : Bits64
  /-- WIN. -/
  win : List Word
  deriving DecidableEq, Repr

/-- FOUT, the fourteen fields of UNPK: ten counters and four floats (R90). -/
structure Fields where
  ctr : List Word
  sine : Bits32
  cosine : Bits32
  ramp : Bits64
  triangle : Bits64
  deriving DecidableEq, Repr

/-- What an operation returns with status OK, on the port that carries it (R56, R57). The other
result ports carry nothing the spec speaks of. -/
inductive Result where
  /-- No data: WRB, CTRPUB. -/
  | nothing
  /-- VOUT. -/
  | value (v : Bits64)
  /-- WOUT. -/
  | words (ws : List Word)
  /-- FOUT. -/
  | fields (f : Fields)
  deriving DecidableEq, Repr

/-- The error kinds with the information each carries (R109, R112). -/
inductive Error where
  /-- The span exceeds the bank: WRB, RDR, CTRPUB. -/
  | outOfRange (start count : Nat)
  /-- Fewer words than the slice needs: UNPK. -/
  | insufficientData (received : Nat)
  /-- The transport's own error, opaque, passed through to a CLIENTREAD; never the block's (R116). -/
  | transportError (cause : Nat)
  /-- Reserved, never raised (R116). -/
  | encodingPrecondition
  /-- The packet spells no operation, or one the issuing port may not perform. -/
  | illegalCommand (packet : Packet)
  deriving DecidableEq, Repr

/-- The names of the status codes (R110). -/
inductive Status where
  | ok
  | outOfRange
  | insufficientData
  | transportError
  | encodingPrecondition
  | illegalCommand
  deriving DecidableEq, Repr

/-- What a port's result side shows (R56, R113). -/
inductive Reply where
  /-- No operation of this port has completed since reset. -/
  | idle
  /-- STATUS = OK with the result. -/
  | ok (r : Result)
  /-- STATUS = E with its information; no result port is valid. -/
  | failed (e : Error)
  deriving DecidableEq, Repr

/-- LOOP, the state of the UpdateLoop (R23). -/
inductive Loop where
  | running
  | errorBackoff
  deriving DecidableEq, Repr

/-- The bit patterns of one tick's float values, which the writer host computes (R97, R105). -/
structure Patterns where
  sine : Bits32
  cosine : Bits32
  ramp : Bits64
  triangle : Bits64
  deriving DecidableEq, Repr

/-- One command of a tick (R95 to R97). -/
inductive TickStep where
  /-- CTRPUB. -/
  | counters
  /-- ENCF32 of the pattern under CFG.ORDER. -/
  | encode32 (v : Bits32)
  /-- ENCF64 of the pattern under CFG.ORDER. -/
  | encode64 (v : Bits64)
  /-- WRB at this address of the words the last encode returned. -/
  | write (start : Word)
  deriving DecidableEq, Repr

/-- Where the writer host is in its loop (R118 to R121, R134). -/
inductive Phase where
  /-- It has not yet taken `startTime` (R134 step 4). -/
  | starting
  /-- At a tick boundary, where STOP is looked at (R118). -/
  | boundary
  /-- Inside the tick that read elapsed time `t`: the commands not yet issued, and the words the
  last command returned (R97). -/
  | ticking (t : Seconds) (todo : List TickStep) (words : List Word)
  /-- Asleep until `now` reaches the instant (R119, R120). -/
  | sleeping (wakeAt : Seconds)
  /-- It has seen STOP and issues nothing further (R118). -/
  | exited
  deriving DecidableEq, Repr

/-- A client host with its own instance of the pure operations (R107, R122). -/
structure Client where
  /-- The client's own CFG.ORDER. -/
  order : Order
  /-- The server adapter's answer to the read request the transport is carrying, if there is one. -/
  request : Option Reply
  /-- What the client's last operation returned. -/
  reply : Reply
  deriving DecidableEq, Repr

/-- What the transport hands a waiting client (R107, R108). -/
inductive Delivery where
  /-- The first `m` of the words the server read (all of them if there are no more). -/
  | first (m : Nat)
  /-- A transport error, opaque. -/
  | error (cause : Nat)
  deriving DecidableEq, Repr

/-- One thing that happens next: which agent moves, and what it or the environment supplies
(R8, R29, R122). -/
inductive Event where
  /-- A host presents a command on a port. -/
  | command (q : Issue)
  /-- The writer host takes its next action; a turn that begins a tick publishes `p` (R105). -/
  | writerTurn (p : Patterns)
  /-- Reader host `j` performs SERVERREAD (R106). -/
  | serverRead (j : Nat) (start count : Word)
  /-- Client `c` issues its one read request, which the transport brings to reader host `j` (R107). -/
  | clientRequest (c j : Nat)
  /-- The transport answers client `c` (R107, R108). -/
  | clientDeliver (c : Nat) (d : Delivery)
  /-- now() reads `t` (R24). -/
  | clock (t : Seconds)
  /-- STOP becomes `on` (R118). -/
  | stopSignal (on : Bool)
  deriving DecidableEq, Repr

/-- Why the machine stops. The spec itself stops on nothing: every error it names is a reply, after
which the block goes on (R113). -/
inductive Fault where
  /-- Raised by DECF32, DECF64, DECU16, UNPK and WRB when WIN does not hold the number of words the
  packet says, which R56 says "cannot be expressed" (log 8). Safe: no hardware presents it. -/
  | wordCount (expected got : Nat)
  deriving DecidableEq, Repr

/-- Why the machine declines an instruction. -/
inductive Refusal where
  /-- Raised by `exec` for an instruction without a meaning; there is none. Safe. -/
  | notModelled (mnemonic : String)
  deriving DecidableEq, Repr

/-- The state of the block and of its hosts. -/
structure State where
  /-- CFG (R22), which no step changes. -/
  cfg : Cfg
  /-- BANK (R10). -/
  bank : Memory
  /-- K, the tick index (R19). -/
  k : BitVec 6
  /-- The command the current operation finds on its port (R56). -/
  bus : Issue
  /-- What the writer port returned last (R56). -/
  wReply : Reply
  /-- What each reader port returned last; an unlisted port is idle (R56). -/
  readers : Sparse Reply
  /-- The clients; an unlisted one is as at reset (R107). -/
  clients : Sparse Client
  /-- LOOP (R23). -/
  loop : Loop
  /-- STOP (R24). -/
  stop : Bool
  /-- startTime (R24). -/
  startTime : Seconds
  /-- The latest reading of now() (R24). -/
  now : Seconds
  /-- Where the writer host is (R118 to R121). -/
  phase : Phase
  /-- The model's own field: what happens next, in order (R8, R49). -/
  schedule : List Event
  deriving DecidableEq, Repr

/-- A client as at reset: CFG.ORDER BigEndian (R30), nothing requested, nothing returned. -/
def Client.initial : Client :=
  { order := .bigEndian, request := none, reply := .idle }

/-- The machine right after reset (R30, R132) under the default configuration. -/
def State.reset : State where
  cfg := Cfg.default
  bank := []
  k := 0#6
  bus := { port := .writer, cmd := 0#40, vin := 0#64, win := [] }
  wReply := .idle
  readers := []
  clients := []
  loop := .running
  stop := false
  startTime := .rational 0
  now := .rational 0
  phase := .starting
  schedule := []

end Sys2Proof.Machine
end

