-- ==== Sys2Proof/Machine/Clock.lean ====
section
/-! DEFINITION. What the writer host does with times: which is the earlier, the end of a sleep, the time
elapsed (R24, R119, R120). Rational times are computed with as such. -/

namespace Sys2Proof

/-- The first time is earlier than the second. -/
def Seconds.before : Seconds → Seconds → Bool
  | .rational p, .rational q => decide (p < q)
  | x, y => @decide _ (Config.times.decideBefore x y)

/-- A time and so many seconds more. -/
def Seconds.add : Seconds → Seconds → Seconds
  | .rational p, .rational q => .rational (p + q)
  | x, y => .plus x y

/-- The time from the second to the first. -/
def Seconds.sub : Seconds → Seconds → Seconds
  | .rational p, .rational q => .rational (p - q)
  | x, y => .minus x y

end Sys2Proof
end

