-- ==== Sys2Proof/Machine/AddressMap.lean ====
section
/-! DEFINITION. The constants of R6 and the address map (R16, R17). -/

namespace Sys2Proof.Machine

/-- The number of counters (R6). -/
def counterCount : Nat := 10

/-- The modulus of the counters and of the tick index (R6). -/
def counterModulus : Nat := 51

/-- The length of the client slice (R6). -/
def sliceLength : Nat := 38

/-- The first address of the counters, CTR[0] (R17). -/
def ctrAddr : Nat := 0

/-- The first address of SINE (R17). -/
def sineAddr : Nat := 20

/-- The first address of COSINE (R17). -/
def cosineAddr : Nat := 22

/-- The first address of RAMP (R17). -/
def rampAddr : Nat := 30

/-- The first address of TRIANGLE (R17). -/
def triangleAddr : Nat := 34

/-- The kinds of logical value (R15). -/
inductive Kind where
  | uint16
  | float32
  | float64
  deriving DecidableEq, Repr

/-- The words a value of the kind occupies (R6). -/
def Kind.width : Kind → Nat
  | .uint16 => 1
  | .float32 => 2
  | .float64 => 4

/-- An entry of the address map: `items` values of one kind from address `start` on (R17). -/
structure MapEntry where
  name : String
  kind : Kind
  start : Nat
  items : Nat
  deriving DecidableEq, Repr

/-- The number of registers of the entry. -/
def MapEntry.length (e : MapEntry) : Nat := e.items * e.kind.width

/-- The address lies in the entry's range. -/
def MapEntry.covers (e : MapEntry) (a : Nat) : Bool :=
  decide (e.start ≤ a) && decide (a < e.start + e.length)

/-- The address map in the order of the batches of a tick (R17). -/
def addressMap : List MapEntry :=
  [ ⟨"CTR", .uint16, ctrAddr, counterCount⟩,
    ⟨"SINE", .float32, sineAddr, 1⟩,
    ⟨"COSINE", .float32, cosineAddr, 1⟩,
    ⟨"RAMP", .float64, rampAddr, 1⟩,
    ⟨"TRIANGLE", .float64, triangleAddr, 1⟩ ]

/-- The address carries a logical value (R17, R18). -/
def isMapped (a : Nat) : Bool := addressMap.any fun e => e.covers a

/-- The decoded value of a logical value, tagged with its kind (R15). -/
inductive TaggedValue where
  | uint16 (v : Word)
  | float32 (v : Bits32)
  | float64 (v : Bits64)
  deriving DecidableEq, Repr

/-- The value's kind (R15). -/
def TaggedValue.kind : TaggedValue → Kind
  | .uint16 _ => .uint16
  | .float32 _ => .float32
  | .float64 _ => .float64

/-- A logical value: a tagged value with the register range it occupies, which begins at `start` and
is as long as the value's encoded width (R15). -/
structure LogicalValue where
  value : TaggedValue
  start : Nat
  deriving DecidableEq, Repr

/-- The value's kind. -/
def LogicalValue.kind (v : LogicalValue) : Kind := v.value.kind

/-- The length of the value's range: 1, 2 or 4 (R15). -/
def LogicalValue.length (v : LogicalValue) : Nat := v.kind.width

end Sys2Proof.Machine
end

