-- ==== Sys2Proof/Machine/Ops.lean ====
section
/-! DEFINITION. The named operations over memory, ports and host state, and the one operation that
ends a command in an error, with the writer host's entry to and return from ErrorBackoff beside it. -/

namespace Sys2Proof.Machine

/-! ### Sparse maps -/

/-- What the map holds at key `a`; `d` where it lists nothing. -/
def Sparse.read {α : Type} (d : α) : Sparse α → Nat → α
  | [], _ => d
  | (key, v) :: m, a => if a = key then v else Sparse.read d m a

/-- The map with `v` at key `a`, in its place among rising keys. -/
def Sparse.insert {α : Type} : Sparse α → Nat → α → Sparse α
  | [], a, v => [(a, v)]
  | (key, w) :: m, a, v =>
    if a < key then (a, v) :: (key, w) :: m
    else if a = key then (a, v) :: m
    else (key, w) :: Sparse.insert m a v

/-- The map with `v` at key `a`; writing what an unlisted key reads as removes the entry. -/
def Sparse.write {α : Type} [DecidableEq α] (d : α) (m : Sparse α) (a : Nat) (v : α) : Sparse α :=
  if v = d then m.filter (fun e => e.1 != a) else Sparse.insert m a v

/-- The canonical form: keys strictly rising, no entry equal to what an unlisted key reads as. -/
abbrev Sparse.wf {α : Type} [DecidableEq α] (d : α) (m : Sparse α) : Prop :=
  m.Pairwise (fun x y => x.1 < y.1) ∧ ∀ e ∈ m, e.2 ≠ d

/-! ### BANK -/

/-- `BANK[a]`; a register never written since reset reads 0x0000 (R11, R79). -/
def Memory.read (m : Memory) (a : Nat) : Word := Sparse.read 0#16 m a

/-- `BANK[a] <- v`. -/
def Memory.write (m : Memory) (a : Nat) (v : Word) : Memory := Sparse.write 0#16 m a v

/-- The canonical form of BANK's contents. -/
abbrev Memory.wf (m : Memory) : Prop := Sparse.wf 0#16 m

/-- MemRead: the snapshot `[BANK[start], ..., BANK[start+count-1]]` (R42). -/
def memRead (m : Memory) (start count : Nat) : List Word :=
  (List.range count).map fun j => m.read (start + j)

/-- MemWrite: `BANK[start + j] <- ws[j]` for every j, one atomic update (R41). -/
def memWrite (m : Memory) (start : Nat) : List Word → Memory
  | [] => m
  | w :: ws => memWrite (m.write start w) (start + 1) ws

/-! ### One update per piece of state -/

def State.withBank (m : Memory) (s : State) : State := { s with bank := m }
def State.withK (k : BitVec 6) (s : State) : State := { s with k := k }
def State.withBus (q : Issue) (s : State) : State := { s with bus := q }
def State.withLoop (l : Loop) (s : State) : State := { s with loop := l }
def State.withStop (b : Bool) (s : State) : State := { s with stop := b }
def State.withStartTime (t : Seconds) (s : State) : State := { s with startTime := t }
def State.withNow (t : Seconds) (s : State) : State := { s with now := t }
def State.withPhase (p : Phase) (s : State) : State := { s with phase := p }
def State.withSchedule (es : List Event) (s : State) : State := { s with schedule := es }

/-- Client `c` (R107). -/
def State.client (s : State) (c : Nat) : Client := Sparse.read Client.initial s.clients c

/-- The state with client `c` as given. -/
def State.withClient (c : Nat) (x : Client) (s : State) : State :=
  { s with clients := Sparse.write Client.initial s.clients c x }

/-- What a port shows (R56). -/
def State.replyAt (s : State) : Port → Reply
  | .writer => s.wReply
  | .reader j => Sparse.read .idle s.readers j
  | .client c => (s.client c).reply

/-- The state with a port showing `r`: what an operation returns goes to the port that issued it and
to no other (R83, R113). -/
def State.withReply (p : Port) (r : Reply) (s : State) : State :=
  match p with
  | .writer => { s with wReply := r }
  | .reader j => { s with readers := Sparse.write .idle s.readers j r }
  | .client c => s.withClient c { s.client c with reply := r }

/-! ### How an operation ends -/

/-- `result(...)`: the operation ends with STATUS = OK and its result on the issuing port (R56). -/
def finish (r : Result) (s : State) : Host.Outcome State Fault Refusal :=
  .next (s.withReply s.bus.port (.ok r))

/-- `raise E(info)`: the operation ends with STATUS = E and its information on the issuing port, no
result, and every other piece of state as before (R112, R113). This is how every exception of the
block is taken. -/
def raise (e : Error) (s : State) : Host.Outcome State Fault Refusal :=
  .next (s.withReply s.bus.port (.failed e))

/-- Only the writer port may perform the operation (R123); on another port it ends with
IllegalCommand and the packet. -/
def onWriterPort (s : State) (k : Host.Outcome State Fault Refusal) :
    Host.Outcome State Fault Refusal :=
  match s.bus.port with
  | .writer => k
  | .reader _ => raise (.illegalCommand s.bus.cmd) s
  | .client _ => raise (.illegalCommand s.bus.cmd) s

/-- The operation needs a bank behind its port. A client's instance has none (R123); there the
operation is one the port may not perform, IllegalCommand by R109 (log 9). -/
def onBankPort (s : State) (k : Host.Outcome State Fault Refusal) :
    Host.Outcome State Fault Refusal :=
  match s.bus.port with
  | .writer => k
  | .reader _ => k
  | .client _ => raise (.illegalCommand s.bus.cmd) s

/-- The bound check, in unbounded naturals: admitted exactly when `start + count <= N` (R43). -/
def inSpan (start count : Nat) (s : State) (k : Host.Outcome State Fault Refusal) :
    Host.Outcome State Fault Refusal :=
  if start + count ≤ s.cfg.n then k else raise (.outOfRange start count) s

/-! ### The writer host's ErrorBackoff -/

/-- W enters ErrorBackoff, the analogue of trap entry: LOOP changes, the rest of the tick is not
issued, nothing is rolled back, W sleeps CFG.BACKOFF_S (R98, R120). -/
def enterBackoff (s : State) : State :=
  (s.withLoop .errorBackoff).withPhase (.sleeping (s.now.add s.cfg.backoffS))

/-- W's sleep ends: LOOP is Running and W is at a tick boundary (R119, R121). From ErrorBackoff this
is the analogue of the return. -/
def wake (s : State) : State := (s.withLoop .running).withPhase .boundary

/-- A tick whose every step returned OK ends: W sleeps CFG.UPDATE_S and stays in Running (R119). -/
def endTick (s : State) : State := s.withPhase (.sleeping (s.now.add s.cfg.updateS))

end Sys2Proof.Machine
end

