-- ==== Sys2Proof/Machine/Operands.lean ====
section
/-! DEFINITION. The operand ports (R56) and the layout functions between a value and its words
(R36 to R39). -/

namespace Sys2Proof.Machine

/-! ### Layout -/

/-- The two words of a float32, high-order word first (R36). -/
def split32 (v : Bits32) : Word × Word := (v.extractLsb' 16 16, v.extractLsb' 0 16)

/-- The float32 of two words, high-order word first (R36). -/
def join32 (ws : Word × Word) : Bits32 := ws.1 ++ ws.2

/-- The four words of a float64, high-order word first (R37). -/
def split64 (v : Bits64) : Word × Word × Word × Word :=
  (v.extractLsb' 48 16, v.extractLsb' 32 16, v.extractLsb' 16 16, v.extractLsb' 0 16)

/-- The float64 of four words, high-order word first (R37). -/
def join64 : Word × Word × Word × Word → Bits64
  | (a, b, c, d) => a ++ b ++ c ++ d

/-- The two words in the given order: LittleEndian reverses them (R38). -/
def ord2 : Order → Word × Word → Word × Word
  | .bigEndian, ws => ws
  | .littleEndian, (a, b) => (b, a)

/-- The four words in the given order: LittleEndian reverses the whole sequence (R39). -/
def ord4 : Order → Word × Word × Word × Word → Word × Word × Word × Word
  | .bigEndian, ws => ws
  | .littleEndian, (a, b, c, d) => (d, c, b, a)

/-- Two words as a sequence. -/
def pairList : Word × Word → List Word
  | (a, b) => [a, b]

/-- Four words as a sequence. -/
def quadList : Word × Word × Word × Word → List Word
  | (a, b, c, d) => [a, b, c, d]

/-! ### VIN -/

/-- VIN[31:0]; the bits above are ignored (R56). -/
def vin32 (s : State) : Bits32 := s.bus.vin.extractLsb' 0 32

/-- VIN[63:0] (R56). -/
def vin64 (s : State) : Bits64 := s.bus.vin

/-- VIN[15:0]; the bits above are ignored (R56, R75). -/
def vin16 (s : State) : Word := s.bus.vin.extractLsb' 0 16

/-! ### WIN -/

/-- The sequence has exactly `n` words. -/
def hasLength : Nat → List Word → Bool
  | 0, [] => true
  | n + 1, _ :: ws => hasLength n ws
  | 0, _ :: _ => false
  | _ + 1, [] => false

/-- The word operand, which holds exactly `n` words (R56); any other length cannot be presented. -/
def withWords (n : Nat) (s : State) (k : List Word → Host.Outcome State Fault Refusal) :
    Host.Outcome State Fault Refusal :=
  if hasLength n s.bus.win then k s.bus.win else .fault (.wordCount n s.bus.win.length)

/-- How many words an operation takes from WIN, if it takes any (R56). -/
def operandWords : Instr → Option Nat
  | .encf32 _ => none
  | .decf32 _ => some 2
  | .encf64 _ => none
  | .decf64 _ => some 4
  | .encu16 => none
  | .decu16 => some 1
  | .unpk _ count => some count
  | .wrb _ count => some count
  | .rdr _ _ => none
  | .ctrpub => none

/-- The command's WIN has the length its packet says (R56). The data of an illegal packet is ignored
(R60). -/
def Issue.presentable (q : Issue) : Bool :=
  match decode q.cmd with
  | none => true
  | some i =>
    match operandWords i with
    | none => true
    | some n => hasLength n q.win

/-! ### Results -/

/-- The words a result carries on WOUT, if it is one of words. -/
def Result.wordsOf : Result → List Word
  | .nothing => []
  | .value _ => []
  | .words ws => ws
  | .fields _ => []

/-- The words a reply carries; a failing operation returns none (R94, R113). -/
def Reply.wordsOf : Reply → List Word
  | .idle => []
  | .ok r => r.wordsOf
  | .failed _ => []

end Sys2Proof.Machine
end

