-- ==== Sys2Proof/Machine/Flags.lean ====
section
/-! DEFINITION. The block has no flags and no condition codes (R26): the outcome of an operation is
its STATUS, computed here, and nothing else is kept. -/

namespace Sys2Proof.Machine

/-- The status an error is reported with (R109, R110). -/
def Error.status : Error → Status
  | .outOfRange _ _ => .outOfRange
  | .insufficientData _ => .insufficientData
  | .transportError _ => .transportError
  | .encodingPrecondition => .encodingPrecondition
  | .illegalCommand _ => .illegalCommand

/-- What the STATUS port shows; nothing before the port's first operation (R110). -/
def Reply.status : Reply → Option Status
  | .idle => none
  | .ok _ => some .ok
  | .failed e => some e.status

/-- The numbers of the status codes (R110). No behaviour depends on them. -/
def Status.code : Status → Nat
  | .ok => 0
  | .outOfRange => 1
  | .insufficientData => 2
  | .transportError => 3
  | .encodingPrecondition => 4
  | .illegalCommand => 5

/-- With InsufficientData, "the missing portion": 38 less the number of words received (R112). -/
def missingWords (received : Nat) : Nat := sliceLength - received

end Sys2Proof.Machine
end

