-- ==== Sys2Proof/Machine/FloatCodec.lean ====
section
/-! DEFINITION. ENCF32, DECF32, ENCF64, DECF64 (40_float_codec.md). Values are bit patterns (R66); no
operation here reads or writes any state but its own ports. -/

namespace Sys2Proof.Machine

/-- `encodeFloat32(value, order)` (R67). -/
def encF32 (v : Bits32) (o : Order) : List Word := pairList (ord2 o (split32 v))

/-- `decodeFloat32([reg0, reg1], order)` (R68). -/
def decF32 (reg0 reg1 : Word) (o : Order) : Bits32 := join32 (ord2 o (reg0, reg1))

/-- `encodeFloat64(value, order)` (R69). -/
def encF64 (v : Bits64) (o : Order) : List Word := quadList (ord4 o (split64 v))

/-- `decodeFloat64([reg0..reg3], order)` (R70). -/
def decF64 (reg0 reg1 reg2 reg3 : Word) (o : Order) : Bits64 :=
  join64 (ord4 o (reg0, reg1, reg2, reg3))

/-- ENCF32 (R67). -/
def execEncf32 (o : Order) (s : State) : Host.Outcome State Fault Refusal :=
  finish (.words (encF32 (vin32 s) o)) s

/-- DECF32: VOUT[31:0] is the value, VOUT[63:32] zero (R68). -/
def execDecf32 (o : Order) (s : State) : Host.Outcome State Fault Refusal :=
  match s.bus.win with
  | [reg0, reg1] => finish (.value ((decF32 reg0 reg1 o).setWidth 64)) s
  | ws => .fault (.wordCount 2 ws.length)

/-- ENCF64 (R69). -/
def execEncf64 (o : Order) (s : State) : Host.Outcome State Fault Refusal :=
  finish (.words (encF64 (vin64 s) o)) s

/-- DECF64 (R70). -/
def execDecf64 (o : Order) (s : State) : Host.Outcome State Fault Refusal :=
  match s.bus.win with
  | [reg0, reg1, reg2, reg3] => finish (.value (decF64 reg0 reg1 reg2 reg3 o)) s
  | ws => .fault (.wordCount 4 ws.length)

end Sys2Proof.Machine
end

