-- ==== Sys2Proof/Machine/UInt16Codec.lean ====
section
/-! DEFINITION. ENCU16 and DECU16 (41_uint16_codec.md): the identity between a 16-bit value and one
register word. -/

namespace Sys2Proof.Machine

/-- `encodeUInt16(value)` (R75). -/
def encU16 (v : Word) : List Word := [v]

/-- `decodeUInt16([reg])` (R76). -/
def decU16 (reg : Word) : Word := reg

/-- The words of a tagged value under an order, which a one-word value ignores (R15, R40). -/
def TaggedValue.words (o : Order) : TaggedValue → List Word
  | .uint16 v => encU16 v
  | .float32 v => encF32 v o
  | .float64 v => encF64 v o

/-- What the range of a logical value holds once the value is published (R15, R41). -/
def LogicalValue.words (o : Order) (v : LogicalValue) : List Word := v.value.words o

/-- ENCU16 (R75). -/
def execEncu16 (s : State) : Host.Outcome State Fault Refusal :=
  finish (.words (encU16 (vin16 s))) s

/-- DECU16: VOUT[15:0] is the value, VOUT[63:16] zero (R76). -/
def execDecu16 (s : State) : Host.Outcome State Fault Refusal :=
  match s.bus.win with
  | [reg] => finish (.value ((decU16 reg).setWidth 64)) s
  | ws => .fault (.wordCount 1 ws.length)

end Sys2Proof.Machine
end

