-- ==== Sys2Proof/Machine/RegisterBank.lean ====
section
/-! DEFINITION. WRB and RDR (42_register_bank.md), the block's store and load. -/

namespace Sys2Proof.Machine

/-- WRB: the role, then the bound check, then the whole batch in one step; K is not touched
(R78, R80, R115). -/
def execWrb (start count : Nat) (s : State) : Host.Outcome State Fault Refusal :=
  onWriterPort s <| inSpan start count s <| withWords count s fun ws =>
    finish .nothing (s.withBank (memWrite s.bank start ws))

/-- RDR: a snapshot of the span, on any port that has a bank behind it (R79, R80, R82). -/
def execRdr (start count : Nat) (s : State) : Host.Outcome State Fault Refusal :=
  onBankPort s <| inSpan start count s <| finish (.words (memRead s.bank start count)) s

end Sys2Proof.Machine
end

