-- ==== Sys2Proof/Machine/CounterSerializer.lean ====
section
/-! DEFINITION. The counter serializer (43_counter_serializer.md): counters(k) and CTRPUB. -/

namespace Sys2Proof.Machine

/-- `counters(k)`: ten words, element i being (k + i) mod 51 (R84). -/
def counters (k : Nat) : List Word :=
  (List.range counterCount).map fun i => BitVec.ofNat 16 ((k + i) % counterModulus)

/-- The tick index after the counters write, (K + 1) mod 51 (R20, R86). -/
def nextTickIndex (k : BitVec 6) : BitVec 6 := BitVec.ofNat 6 ((k.toNat + 1) % counterModulus)

/-- CTRPUB: the role, then the bound check of [0, 10), then the batch and the new tick index in one
step (R86, R115). Each counter goes through ENCU16. -/
def execCtrpub (s : State) : Host.Outcome State Fault Refusal :=
  onWriterPort s <| inSpan ctrAddr counterCount s <|
    finish .nothing
      ((s.withBank (memWrite s.bank ctrAddr ((counters s.k.toNat).flatMap encU16))).withK
        (nextTickIndex s.k))

end Sys2Proof.Machine
end

