-- ==== Sys2Proof/Machine/Unpacker.lean ====
section
/-! DEFINITION. UNPK (44_unpacker.md): the partition of a slice by the address map. -/

namespace Sys2Proof.Machine

/-- The fourteen fields of a slice that starts at address 0 and holds at least 38 words (R90, R91).
The words of no field, and those from index 38 on, are ignored (R93). -/
def unpack (o : Order) (ws : List Word) : Fields :=
  let w := fun j => ws.getD j 0#16
  { ctr := (List.range counterCount).map fun i => decU16 (w (ctrAddr + i))
    sine := decF32 (w sineAddr) (w (sineAddr + 1)) o
    cosine := decF32 (w cosineAddr) (w (cosineAddr + 1)) o
    ramp := decF64 (w rampAddr) (w (rampAddr + 1)) (w (rampAddr + 2)) (w (rampAddr + 3)) o
    triangle := decF64 (w triangleAddr) (w (triangleAddr + 1)) (w (triangleAddr + 2))
      (w (triangleAddr + 3)) o }

/-- UNPK: InsufficientData for a slice of fewer than 38 words, and then no field at all; else all
fourteen fields (R90, R92, R94). -/
def execUnpk (o : Order) (count : Nat) (s : State) : Host.Outcome State Fault Refusal :=
  if count < sliceLength then raise (.insufficientData count) s
  else withWords count s fun ws => finish (.fields (unpack o ws)) s

end Sys2Proof.Machine
end

