-- ==== Sys2Proof/Machine/Dispatch.lean ====
section
/-! DEFINITION. Which meaning each operation has (R57). -/

namespace Sys2Proof.Machine

def exec (i : Instr) (s : State) : Host.Outcome State Fault Refusal :=
  match i with
  | .encf32 o => Sys2Proof.Machine.execEncf32 o s
  | .decf32 o => Sys2Proof.Machine.execDecf32 o s
  | .encf64 o => Sys2Proof.Machine.execEncf64 o s
  | .decf64 o => Sys2Proof.Machine.execDecf64 o s
  | .encu16 => Sys2Proof.Machine.execEncu16 s
  | .decu16 => Sys2Proof.Machine.execDecu16 s
  | .unpk o count => Sys2Proof.Machine.execUnpk o count s
  | .wrb start count => Sys2Proof.Machine.execWrb start count s
  | .rdr start count => Sys2Proof.Machine.execRdr start count s
  | .ctrpub => Sys2Proof.Machine.execCtrpub s

end Sys2Proof.Machine
end

