-- ==== Sys2Proof/Machine/Hosts.lean ====
section
/-! DEFINITION. How a command reaches the block, and what the hosts do: the writer host's loop and
ticks, the reader hosts' SERVERREAD, the clients' CLIENTREAD (45_host_sequences.md,
60_exceptions.md sections 3 to 5). -/

namespace Sys2Proof.Machine

/-- A command is presented on a port: decode first, and an illegal packet ends with IllegalCommand on
any port; a legal one is performed (R59, R60, R115). -/
def issue (q : Issue) (s : State) : Host.Outcome State Fault Refusal :=
  match decode q.cmd with
  | none => raise (.illegalCommand q.cmd) (s.withBus q)
  | some i => exec i (s.withBus q)

/-! ### The writer host -/

/-- PUBF32 a, v: encode under CFG.ORDER, then write the words at `a` (R95). -/
def pubf32 (a : Nat) (v : Bits32) : List TickStep := [.encode32 v, .write (BitVec.ofNat 16 a)]

/-- PUBF64 a, v (R96). -/
def pubf64 (a : Nat) (v : Bits64) : List TickStep := [.encode64 v, .write (BitVec.ofNat 16 a)]

/-- TICK s, c, r, g: the five batches in order (R97). -/
def tick (p : Patterns) : List TickStep :=
  .counters :: (pubf32 sineAddr p.sine ++ pubf32 cosineAddr p.cosine ++ pubf64 rampAddr p.ramp ++
    pubf64 triangleAddr p.triangle)

/-- The fourteen logical values of a tick, each with its range (R15, R17): the ten counters of tick index
`k` and the four float values. A tick publishes the counters as one batch and each float as one. -/
def tickValues (k : Nat) (p : Patterns) : List LogicalValue :=
  ((counters k).zipIdx ctrAddr).map (fun c => { value := .uint16 c.1, start := c.2 }) ++
    [ { value := .float32 p.sine, start := sineAddr },
      { value := .float32 p.cosine, start := cosineAddr },
      { value := .float64 p.ramp, start := rampAddr },
      { value := .float64 p.triangle, start := triangleAddr } ]

/-- The command of one step of a tick: `words` is what the last encode returned (R95 to R97). -/
def TickStep.issue (o : Order) (words : List Word) : TickStep → Issue
  | .counters => { port := .writer, cmd := encode .ctrpub, vin := 0#64, win := [] }
  | .encode32 v => { port := .writer, cmd := encode (.encf32 o), vin := v.setWidth 64, win := [] }
  | .encode64 v => { port := .writer, cmd := encode (.encf64 o), vin := v, win := [] }
  | .write a =>
    { port := .writer, cmd := encode (.wrb a.toNat words.length), vin := 0#64, win := words }

/-- W takes `startTime` and reaches its first tick boundary (R24, R134). -/
def startLoop (s : State) : State := (s.withStartTime s.now).withPhase .boundary

/-- W begins a tick: it reads `t = now() - startTime` once and has the four patterns before the first
batch is issued (R97). -/
def beginTick (p : Patterns) (s : State) : State :=
  s.withPhase (.ticking (s.now.sub s.startTime) (tick p) [])

/-- What W does with the status of a tick's step: go on, end the tick, or back off (R98, R119, R120). -/
def afterTickStep (t : Seconds) (rest : List TickStep) (s : State) : State :=
  if s.wReply.status = some .ok then
    match rest with
    | [] => endTick s
    | _ :: _ => s.withPhase (.ticking t rest s.wReply.wordsOf)
  else enterBackoff s

/-- W issues the next step of its tick, one command (R97). -/
def tickTurn (t : Seconds) (todo : List TickStep) (words : List Word) (s : State) :
    Host.Outcome State Fault Refusal :=
  match todo with
  | [] => .next (endTick s)
  | x :: rest =>
    match issue (x.issue s.cfg.order words) s with
    | .next s' => .next (afterTickStep t rest s')
    | .fault r => .fault r
    | .refused r => .refused r

/-- W's next action (R118 to R121). A sleeping or exited W does nothing (R125). -/
def writerTurn (p : Patterns) (s : State) : Host.Outcome State Fault Refusal :=
  match s.phase with
  | .starting => .next (startLoop s)
  | .boundary => if s.stop then .next (s.withPhase .exited) else .next (beginTick p s)
  | .ticking t todo words => tickTurn t todo words s
  | .sleeping wakeAt => if s.now.before wakeAt then .next s else .next (wake s)
  | .exited => .next s

/-! ### Readers and clients -/

/-- SERVERREAD a, n on reader port `j`: one RDR (R106). -/
def serverRead (j : Nat) (start count : Word) (s : State) : Host.Outcome State Fault Refusal :=
  issue { port := .reader j, cmd := encode (.rdr start.toNat count.toNat), vin := 0#64, win := [] } s

/-- The transport carries server adapter `j`'s answer for client `c` (R107). -/
def carryAnswer (c j : Nat) (s : State) : State :=
  s.withClient c { s.client c with request := some (s.replyAt (.reader j)) }

/-- The first half of CLIENTREAD: the client's one read request, address 0, count 38, performed by
reader host `j` (R107). A client with a request outstanding issues no other (R144). -/
def clientRequest (c j : Nat) (s : State) : Host.Outcome State Fault Refusal :=
  match (s.client c).request with
  | some _ => .next s
  | none =>
    match serverRead j 0#16 (BitVec.ofNat 16 sliceLength) s with
    | .next s' => .next (carryAnswer c j s')
    | .fault r => .fault r
    | .refused r => .refused r

/-- The client's request is answered. -/
def answered (c : Nat) (s : State) : State :=
  s.withClient c { s.client c with request := none }

/-- UNPK of the delivered words on the client's own instance, under its own order (R107). -/
def unpackIssue (c : Nat) (o : Order) (ws : List Word) : Issue :=
  { port := .client c, cmd := encode (.unpk o ws.length), vin := 0#64, win := ws }

/-- The second half of CLIENTREAD: a transport error is returned verbatim and UNPK is not issued;
otherwise the delivered words are unpacked (R107, R108). -/
def clientDeliver (c : Nat) (d : Delivery) (s : State) : Host.Outcome State Fault Refusal :=
  match (s.client c).request with
  | none => .next s
  | some answer =>
    match d with
    | .error cause =>
      .next ((answered c s).withReply (.client c) (.failed (.transportError cause)))
    | .first m => issue (unpackIssue c (s.client c).order (answer.wordsOf.take m)) (answered c s)

/-! ### One event -/

/-- What one item of the schedule does. now() never decreases (R24). -/
def runEvent (e : Event) (s : State) : Host.Outcome State Fault Refusal :=
  match e with
  | .command q => issue q s
  | .writerTurn p => writerTurn p s
  | .serverRead j start count => serverRead j start count s
  | .clientRequest c j => clientRequest c j s
  | .clientDeliver c d => clientDeliver c d s
  | .clock t => .next (if s.now.before t then s.withNow t else s)
  | .stopSignal on => .next (s.withStop on)

/-- The command that presents the packet `w` on the writer port, its data all zero and of the length
the packet says (log 3). -/
def zeroCommand (cmd : Packet) : Issue :=
  { port := .writer
    cmd := cmd
    vin := 0#64
    win := List.replicate (((decode cmd).bind operandWords).getD 0) 0#16 }

end Sys2Proof.Machine
end

