-- ==== Sys2Proof/Machine/Step.lean ====
section
/-! DEFINITION. One step of the whole: the first item of the schedule happens. -/

namespace Sys2Proof.Machine

/-- One step. With nothing scheduled the block waits for a command (R132). -/
def step (s : State) : Host.Outcome State Fault Refusal :=
  match s.schedule with
  | [] => .next s
  | e :: es => runEvent e (s.withSchedule es)

/-- `s` with the packet in the low `nbits` bits of `w` presented next, on the writer port (log 3). -/
def State.withFetchWord (s : State) (nbits w : Nat) : State :=
  s.withSchedule (.command (zeroCommand (BitVec.ofNat 40 (w % 2 ^ nbits))) :: s.schedule)

end Sys2Proof.Machine
end

