-- ==== Sys2Proof/Machine/Signals.lean ====
section
/-! DEFINITION. The host's float signal functions (R100 to R104), on every real elapsed time. They are
outside the block (R4) and no step reads them: the patterns of a tick are inputs (R105), and a claim may
take as a premise that a pattern is that of a value below at the tick's elapsed time. -/

namespace Sys2Proof.Machine

/-- `sine(t) = sin(0.5 t)` (R100). -/
noncomputable def sine (t : ℝ) : ℝ := Real.sin (0.5 * t)

/-- `cosine(t) = cos(0.5 t)` (R101). -/
noncomputable def cosine (t : ℝ) : ℝ := Real.cos (0.5 * t)

/-- The real-number `t mod m` of the signal functions, `t - m * floor(t / m)` (R102). -/
noncomputable def realMod (t m : ℝ) : ℝ := t - m * (⌊t / m⌋ : ℝ)

/-- `ramp(t) = t mod 100` (R102). -/
noncomputable def ramp (t : ℝ) : ℝ := realMod t 100

/-- `triangle(t) = |((t mod 20) - 10)| * 10 - 50` (R103). The formula is the definition; Scenario A's
value at t = 0 is set aside by 90_conflicts.md C6. -/
noncomputable def triangle (t : ℝ) : ℝ := |realMod t 20 - 10| * 10 - 50

end Sys2Proof.Machine
end

