-- ==== Sys2Proof/Safety.lean ====
section
/-! DEFINITION. The terms in which claims speak: what an operation leaves unchanged, the invariants,
and what the agents may do. No step reads anything of this file. -/

namespace Sys2Proof.Machine

/-- The state after reset under a configuration of the host's choosing (R5, R132). -/
def State.resetWith (c : Cfg) : State := { State.reset with cfg := c }

/-- `n` steps, stopping at the first fault or refusal. -/
def run : Nat → State → Host.Outcome State Fault Refusal
  | 0, s => .next s
  | n + 1, s =>
    match step s with
    | .next s' => run n s'
    | .fault r => .fault r
    | .refused r => .refused r

/-- The writer host, or whoever has the writer port, presents CTRPUB. -/
def ctrpubEvent : Event :=
  .command { port := .writer, cmd := encode .ctrpub, vin := 0#64, win := [] }

/-! ### What is left unchanged -/

/-- Every register word reads as before. -/
def State.bankSame (s t : State) : Prop := ∀ a, t.bank.read a = s.bank.read a

/-- Every register word outside the `count` words from `start` on reads as before. -/
def State.bankSameOutside (start count : Nat) (s t : State) : Prop :=
  ∀ a, a < start ∨ start + count ≤ a → t.bank.read a = s.bank.read a

/-- What the operations of port `p` never touch: everything but BANK, K and what port `p` shows. -/
def State.restSame (p : Port) (s t : State) : Prop :=
  t.cfg = s.cfg ∧ t.bus = s.bus ∧ t.loop = s.loop ∧ t.stop = s.stop ∧ t.startTime = s.startTime ∧
    t.now = s.now ∧ t.phase = s.phase ∧ t.schedule = s.schedule ∧
    (∀ q, q ≠ p → t.replyAt q = s.replyAt q) ∧
    ∀ c, (t.client c).order = (s.client c).order ∧ (t.client c).request = (s.client c).request

/-- The operation changed nothing but what the issuing port shows. -/
def State.onlyReply (s t : State) : Prop :=
  t.k = s.k ∧ s.bankSame t ∧ s.restSame s.bus.port t

/-- The operation ended with the error on the issuing port and without any effect (R113). -/
def endsIn (o : Host.Outcome State Fault Refusal) (s : State) (e : Error) : Prop :=
  ∃ t, o = .next t ∧ t.replyAt s.bus.port = .failed e ∧ s.onlyReply t

/-- The operation succeeded with the result and changed nothing else. -/
def returns (o : Host.Outcome State Fault Refusal) (s : State) (r : Result) : Prop :=
  ∃ t, o = .next t ∧ t.replyAt s.bus.port = .ok r ∧ s.onlyReply t

/-- The two states look the same to the writer host and to every operation of the writer port. -/
def State.writerSame (s t : State) : Prop :=
  t.cfg = s.cfg ∧ t.bank = s.bank ∧ t.k = s.k ∧ t.wReply = s.wReply ∧ t.loop = s.loop ∧
    t.stop = s.stop ∧ t.startTime = s.startTime ∧ t.now = s.now ∧ t.phase = s.phase

/-! ### Invariants -/

/-- The writer host is in its sleep. -/
def Phase.isSleeping : Phase → Bool
  | .starting => false
  | .boundary => false
  | .ticking _ _ _ => false
  | .sleeping _ => true
  | .exited => false

/-- The elapsed time the tick in progress read. -/
def Phase.tickTime : Phase → Option Seconds
  | .starting => none
  | .boundary => none
  | .ticking t _ _ => some t
  | .sleeping _ => none
  | .exited => none

/-- The invariant of every state: CFG within its bounds (R7); BANK in canonical form and within its N
words (R10); K in 0..50 (R19); the maps of ports and clients canonical; LOOP is ErrorBackoff only
while W sleeps (R120); elapsed time is never negative and no tick reads a time to come (R24). -/
abbrev Inv (s : State) : Prop :=
  s.cfg.wf ∧ s.bank.wf ∧ (∀ e ∈ s.bank, e.1 < s.cfg.n) ∧ s.k.toNat ≤ 50 ∧
    Sparse.wf Reply.idle s.readers ∧ Sparse.wf Client.initial s.clients ∧
    (s.loop = .errorBackoff → s.phase.isSleeping = true) ∧ s.startTime.value ≤ s.now.value ∧
    ∀ t ∈ s.phase.tickTime, 0 ≤ t.value ∧ t.value ≤ s.now.value - s.startTime.value

/-- A command of the schedule is one a host can present (R56). -/
def Event.presentable : Event → Bool
  | .command q => q.presentable
  | .writerTurn _ => true
  | .serverRead _ _ _ => true
  | .clientRequest _ _ => true
  | .clientDeliver _ _ => true
  | .clock _ => true
  | .stopSignal _ => true

/-- The length of the words the tick in progress holds. -/
def Phase.wordsHeld : Phase → Nat
  | .starting => 0
  | .boundary => 0
  | .ticking _ _ words => words.length
  | .sleeping _ => 0
  | .exited => 0

/-- The words a client's outstanding request was answered with. -/
def Client.wordsWaiting (x : Client) : Nat :=
  match x.request with
  | none => 0
  | some r => r.wordsOf.length

/-- Every command to come is one a host can present, and no sequence of words anywhere is longer
than the 16-bit COUNT can say (R54, R56). -/
def State.presentable (s : State) : Prop :=
  s.cfg.n ≤ 65535 ∧ (∀ e ∈ s.schedule, e.presentable = true) ∧ s.phase.wordsHeld ≤ 65535 ∧
    (∀ c, (s.client c).wordsWaiting ≤ 65535) ∧ ∀ p, (s.replyAt p).wordsOf.length ≤ 65535

/-! ### The writer port left to the UpdateLoop -/

/-- The event puts no command on the writer port but those of the writer host's own ticks (R51, R140). -/
def Event.sparesWriterPort : Event → Bool
  | .command q => q.port != .writer
  | .writerTurn _ => true
  | .serverRead _ _ _ => true
  | .clientRequest _ _ => true
  | .clientDeliver _ _ => true
  | .clock _ => true
  | .stopSignal _ => true

/-- `words` words written at `a` are exactly one entry of the address map (R14, R139). -/
def isEntrySpan (a words : Nat) : Bool :=
  addressMap.any fun e => e.start == a && e.length == words

/-- Every write of the steps to come is one whole entry of the address map; `words` is the number of
words the last command returned. -/
def writesEntries : List TickStep → Nat → Bool
  | [], _ => true
  | .counters :: rest, _ => writesEntries rest 0
  | .encode32 _ :: rest, _ => writesEntries rest 2
  | .encode64 _ :: rest, _ => writesEntries rest 4
  | .write a :: rest, words => isEntrySpan a.toNat words && writesEntries rest 0

/-- The tick in progress keeps to the address map. -/
def Phase.keepsMap : Phase → Bool
  | .starting => true
  | .boundary => true
  | .ticking _ todo words => writesEntries todo words.length
  | .sleeping _ => true
  | .exited => true

/-- The writer port is left to the UpdateLoop, and the registers of no logical value hold 0x0000
(R18, R97). -/
def HostInv (s : State) : Prop :=
  (∀ e ∈ s.schedule, e.sparesWriterPort = true) ∧ s.phase.keepsMap = true ∧
    ∀ a, isMapped a = false → s.bank.read a = 0#16

/-! ### Readers and clients -/

/-- The event is one of a reader host or of a client. -/
def Event.isReading : Event → Bool
  | .command q => q.port != .writer
  | .writerTurn _ => false
  | .serverRead _ _ _ => true
  | .clientRequest _ _ => true
  | .clientDeliver _ _ => true
  | .clock _ => false
  | .stopSignal _ => false

end Sys2Proof.Machine
end

