-- ==== Sys2Proof/Certificates/Slice0/Obligations.lean ====
section
/-! DEFINITION. The statements for the provers, from the numbered rules of spec/. Where a clause rests
on a decision the spec marks as its own or on a choice of the model, the docstring says so. -/

open Sys2Proof Sys2Proof.Machine

/-! ## Layout and codec -/

/-- R36: the two words of a float32 pattern, high-order word first, and the way back. -/
def Obligations.Split32AndJoin32AreInverse : Prop :=
  ∀ (v : Bits32) (a b : Word),
    split32 v = (v.extractLsb' 16 16, v.extractLsb' 0 16) ∧ join32 (a, b) = a ++ b ∧
      join32 (split32 v) = v ∧ split32 (join32 (a, b)) = (a, b)

/-- R38: BigEndian keeps two words, LittleEndian exchanges them; each order is its own inverse; and
the registers of a float32 under each. -/
def Obligations.TwoWordOrderLayout : Prop :=
  ∀ (a b : Word) (o : Order) (v : Bits32),
    ord2 .bigEndian (a, b) = (a, b) ∧ ord2 .littleEndian (a, b) = (b, a) ∧
      ord2 o (ord2 o (a, b)) = (a, b) ∧
      encF32 v .bigEndian = [v.extractLsb' 16 16, v.extractLsb' 0 16] ∧
      encF32 v .littleEndian = [v.extractLsb' 0 16, v.extractLsb' 16 16]

/-- R37 and R39: the four words of a float64, the way back, and its registers under each order. That
the high-order word comes first is the reading the spec takes (91 N4), and the LittleEndian row, a full
reversal, is the spec's own decision D7. -/
def Obligations.FourWordSplitAndOrderLayout : Prop :=
  ∀ (a b c d : Word) (o : Order) (v : Bits64),
    split64 v = (v.extractLsb' 48 16, v.extractLsb' 32 16, v.extractLsb' 16 16, v.extractLsb' 0 16) ∧
      join64 (a, b, c, d) = a ++ b ++ c ++ d ∧ join64 (split64 v) = v ∧
      split64 (join64 (a, b, c, d)) = (a, b, c, d) ∧
      ord4 .bigEndian (a, b, c, d) = (a, b, c, d) ∧ ord4 .littleEndian (a, b, c, d) = (d, c, b, a) ∧
      ord4 o (ord4 o (a, b, c, d)) = (a, b, c, d) ∧
      encF64 v .bigEndian =
        [v.extractLsb' 48 16, v.extractLsb' 32 16, v.extractLsb' 16 16, v.extractLsb' 0 16] ∧
      encF64 v .littleEndian =
        [v.extractLsb' 0 16, v.extractLsb' 16 16, v.extractLsb' 32 16, v.extractLsb' 48 16]

/-- R72: an encode operation answers with exactly 2 or 4 words, which are the lengths of the float
ranges of the address map. -/
def Obligations.EncodedWidths : Prop :=
  (∀ (o : Order) (s : State),
    (∃ t ws, exec (.encf32 o) s = .next t ∧ t.replyAt s.bus.port = .ok (.words ws) ∧ ws.length = 2) ∧
      ∃ t ws, exec (.encf64 o) s = .next t ∧ t.replyAt s.bus.port = .ok (.words ws) ∧ ws.length = 4) ∧
    ∀ e ∈ addressMap, (e.kind = .float32 → e.length = 2) ∧ (e.kind = .float64 → e.length = 4)

/-- R71 for float32 and float64, over the operations: what an encode returned, decoded under the same
order, is the pattern bit for bit; and what a decode returned, encoded under the same order, is the
words. Every pattern and every order. -/
def Obligations.FloatRoundTrip : Prop :=
  ∀ (o : Order),
    (∀ s s' : State, ∃ t ws, exec (.encf32 o) s = .next t ∧ t.replyAt s.bus.port = .ok (.words ws) ∧
      (s'.bus.win = ws → ∃ t', exec (.decf32 o) s' = .next t' ∧
        t'.replyAt s'.bus.port = .ok (.value ((s.bus.vin.extractLsb' 0 32).setWidth 64)))) ∧
    (∀ s s' : State, ∃ t ws, exec (.encf64 o) s = .next t ∧ t.replyAt s.bus.port = .ok (.words ws) ∧
      (s'.bus.win = ws → ∃ t', exec (.decf64 o) s' = .next t' ∧
        t'.replyAt s'.bus.port = .ok (.value s.bus.vin))) ∧
    (∀ s s' : State, s.bus.win.length = 2 →
      ∃ t v, exec (.decf32 o) s = .next t ∧ t.replyAt s.bus.port = .ok (.value v) ∧
        (s'.bus.vin = v → ∃ t', exec (.encf32 o) s' = .next t' ∧
          t'.replyAt s'.bus.port = .ok (.words s.bus.win))) ∧
    ∀ s s' : State, s.bus.win.length = 4 →
      ∃ t v, exec (.decf64 o) s = .next t ∧ t.replyAt s.bus.port = .ok (.value v) ∧
        (s'.bus.vin = v → ∃ t', exec (.encf64 o) s' = .next t' ∧
          t'.replyAt s'.bus.port = .ok (.words s.bus.win))

/-- R77: the uint16 round trip both ways over the operations, and the width of one word. -/
def Obligations.UInt16RoundTrip : Prop :=
  (∀ s s' : State, ∃ t w, exec .encu16 s = .next t ∧ t.replyAt s.bus.port = .ok (.words [w]) ∧
    (s'.bus.win = [w] → ∃ t', exec .decu16 s' = .next t' ∧
      t'.replyAt s'.bus.port = .ok (.value ((s.bus.vin.extractLsb' 0 16).setWidth 64)))) ∧
  ∀ (s s' : State) (w : Word), s.bus.win = [w] →
    ∃ t v, exec .decu16 s = .next t ∧ t.replyAt s.bus.port = .ok (.value v) ∧
      (s'.bus.vin = v → ∃ t', exec .encu16 s' = .next t' ∧
        t'.replyAt s'.bus.port = .ok (.words [w]))

/-- R137: what one order encoded, the other order decodes, with status OK, to the pattern with its
words reversed; no error shows it. The float64 clause rests on the spec's decision D7. -/
def Obligations.OrderMismatchReversesWords : Prop :=
  (∀ s s' : State, ∃ t ws, exec (.encf32 .bigEndian) s = .next t ∧
    t.replyAt s.bus.port = .ok (.words ws) ∧
    (s'.bus.win = ws → ∃ t', exec (.decf32 .littleEndian) s' = .next t' ∧
      t'.replyAt s'.bus.port = .ok (.value
        ((s.bus.vin.extractLsb' 0 16 ++ s.bus.vin.extractLsb' 16 16 : Bits32).setWidth 64)))) ∧
  ∀ s s' : State, ∃ t ws, exec (.encf64 .littleEndian) s = .next t ∧
    t.replyAt s.bus.port = .ok (.words ws) ∧
    (s'.bus.win = ws → ∃ t', exec (.decf64 .bigEndian) s' = .next t' ∧
      t'.replyAt s'.bus.port = .ok (.value
        (s.bus.vin.extractLsb' 0 16 ++ s.bus.vin.extractLsb' 16 16 ++ s.bus.vin.extractLsb' 32 16 ++
          s.bus.vin.extractLsb' 48 16)))

/-! ## What each operation does, and where it completes -/

/-- R67: ENCF32 in every state, from every port: its two words, no other effect, its packet; equal
halves give the same words under both orders. -/
def Obligations.Encf32Result : Prop :=
  (∀ (o : Order) (s : State), returns (exec (.encf32 o) s) s (.words
    (match o with
    | .bigEndian => [s.bus.vin.extractLsb' 16 16, s.bus.vin.extractLsb' 0 16]
    | .littleEndian => [s.bus.vin.extractLsb' 0 16, s.bus.vin.extractLsb' 16 16]))) ∧
  decode 0x1000000000#40 = some (.encf32 .bigEndian) ∧
  decode 0x1100000000#40 = some (.encf32 .littleEndian) ∧
  (∀ (p : Packet) (o : Order), decode p = some (.encf32 o) →
    opField p = 1#4 ∧ addrField p = 0#16 ∧ countField p = 0#16) ∧
  (∀ v : Bits32, v.extractLsb' 16 16 = v.extractLsb' 0 16 →
    encF32 v .bigEndian = encF32 v .littleEndian) ∧
  encF32 0x3F800000#32 .bigEndian = [0x3F80#16, 0x0000#16] ∧
  encF32 0x3F800000#32 .littleEndian = [0x0000#16, 0x3F80#16]

/-- R68: DECF32 of any two words, from every port: the joined pattern in VOUT[31:0], zero above, no
other effect, its packet; it is the one pattern that encodes to the words. -/
def Obligations.Decf32Result : Prop :=
  (∀ (o : Order) (s : State) (reg0 reg1 : Word), s.bus.win = [reg0, reg1] →
    returns (exec (.decf32 o) s) s (.value
      (match o with
      | .bigEndian => (reg0 ++ reg1 : Bits32).setWidth 64
      | .littleEndian => (reg1 ++ reg0 : Bits32).setWidth 64))) ∧
  decode 0x2000000000#40 = some (.decf32 .bigEndian) ∧
  decode 0x2100000000#40 = some (.decf32 .littleEndian) ∧
  (∀ (p : Packet) (o : Order), decode p = some (.decf32 o) →
    opField p = 2#4 ∧ addrField p = 0#16 ∧ countField p = 0#16) ∧
  (∀ (o : Order) (reg0 reg1 : Word) (v : Bits32),
    encF32 v o = [reg0, reg1] ↔ v = decF32 reg0 reg1 o) ∧
  (∀ v : Bits32, decF32 (v.extractLsb' 16 16) (v.extractLsb' 0 16) .littleEndian =
    v.extractLsb' 0 16 ++ v.extractLsb' 16 16) ∧
  decF32 0x3F80#16 0x0000#16 .bigEndian = 0x3F800000#32 ∧
  decF32 0x3F80#16 0x0000#16 .littleEndian = 0x00003F80#32

/-- ENCF64 in every state, from every port: its four words and no other effect. The LittleEndian words
rest on the spec's decision D7. -/
def Obligations.Encf64Result : Prop :=
  ∀ (o : Order) (s : State), returns (exec (.encf64 o) s) s (.words
    (match o with
    | .bigEndian => [s.bus.vin.extractLsb' 48 16, s.bus.vin.extractLsb' 32 16,
        s.bus.vin.extractLsb' 16 16, s.bus.vin.extractLsb' 0 16]
    | .littleEndian => [s.bus.vin.extractLsb' 0 16, s.bus.vin.extractLsb' 16 16,
        s.bus.vin.extractLsb' 32 16, s.bus.vin.extractLsb' 48 16]))

/-- DECF64 of any four words, from every port: the joined pattern and no other effect. The
LittleEndian pattern rests on the spec's decision D7. -/
def Obligations.Decf64Result : Prop :=
  ∀ (o : Order) (s : State) (r0 r1 r2 r3 : Word), s.bus.win = [r0, r1, r2, r3] →
    returns (exec (.decf64 o) s) s (.value
      (match o with
      | .bigEndian => r0 ++ r1 ++ r2 ++ r3
      | .littleEndian => r3 ++ r2 ++ r1 ++ r0))

/-- R75: ENCU16 in every state, from every port: VIN[15:0] as one word, no other effect; its packet,
and ORD = 1 makes the packet illegal. -/
def Obligations.Encu16Result : Prop :=
  (∀ s : State, returns (exec .encu16 s) s (.words [s.bus.vin.extractLsb' 0 16])) ∧
  decode 0x5000000000#40 = some .encu16 ∧
  (∀ p : Packet, opField p = 5#4 →
    (ordField p = 1#1 ∨ addrField p ≠ 0#16 ∨ countField p ≠ 0#16) → decode p = none) ∧
  encU16 0x0000#16 = [0x0000#16] ∧ encU16 0xFFFF#16 = [0xFFFF#16] ∧ encU16 0x0032#16 = [0x0032#16]

/-- R76: DECU16 of any word, from every port: the word in VOUT[15:0], zero above, no other effect; its
packet. -/
def Obligations.Decu16Result : Prop :=
  (∀ (s : State) (reg : Word), s.bus.win = [reg] →
    returns (exec .decu16 s) s (.value (reg.setWidth 64))) ∧
  decode 0x6000000000#40 = some .decu16 ∧
  (∀ p : Packet, opField p = 6#4 →
    (ordField p ≠ 0#1 ∨ addrField p ≠ 0#16 ∨ countField p ≠ 0#16) → decode p = none) ∧
  ∀ s : State, s.bus.win = [0xFFFF#16] →
    returns (exec .decu16 s) s (.value 65535#64)

/-- R91, and where UNPK completes: a slice of at least 38 words, from every port, gives the fourteen
fields of the address map and no other effect; a packet of UNPK with a start address is illegal. That a
slice longer than 38 words is accepted is the spec's decision D13. -/
def Obligations.UnpkPartitionsSlice : Prop :=
  (∀ (o : Order) (count : Nat) (s : State), 38 ≤ count → s.bus.win.length = count →
    ∃ f : Fields, returns (exec (.unpk o count) s) s (.fields f) ∧
      f.ctr.length = 10 ∧ (∀ i < 10, f.ctr.getD i 0 = s.bus.win.getD i 0) ∧
      f.sine = decF32 (s.bus.win.getD 20 0) (s.bus.win.getD 21 0) o ∧
      f.cosine = decF32 (s.bus.win.getD 22 0) (s.bus.win.getD 23 0) o ∧
      f.ramp = decF64 (s.bus.win.getD 30 0) (s.bus.win.getD 31 0) (s.bus.win.getD 32 0)
        (s.bus.win.getD 33 0) o ∧
      f.triangle = decF64 (s.bus.win.getD 34 0) (s.bus.win.getD 35 0) (s.bus.win.getD 36 0)
        (s.bus.win.getD 37 0) o) ∧
  ∀ p : Packet, opField p = 7#4 → addrField p ≠ 0#16 → decode p = none

/-- UNPK looks only at the words of the address map: two slices that agree there unpack alike, however
long they are and whatever else they hold. That a longer slice is accepted is the spec's decision D13. -/
def Obligations.UnpkIgnoresOtherWords : Prop :=
  ∀ (o : Order) (n n' : Nat) (s s' : State) (r r' : Result),
    s.bus.win.length = n → s'.bus.win.length = n' → 38 ≤ n → 38 ≤ n' →
    (∀ a < 38, isMapped a = true → s.bus.win.getD a 0 = s'.bus.win.getD a 0) →
    returns (exec (.unpk o n) s) s r → returns (exec (.unpk o n') s') s' r' → r = r'

/-- R92 and R94: fewer than 38 words end in InsufficientData with the number received, and no field is
returned; 30 words too. -/
def Obligations.UnpkShortSliceFails : Prop :=
  (∀ (o : Order) (count : Nat) (s : State), count < 38 →
    endsIn (exec (.unpk o count) s) s (.insufficientData count)) ∧
  (∀ (o : Order) (count : Nat) (s t : State) (f : Fields), exec (.unpk o count) s = .next t →
    t.replyAt s.bus.port = .ok (.fields f) → 38 ≤ count) ∧
  ∀ (o : Order) (s : State), endsIn (exec (.unpk o 30) s) s (.insufficientData 30)

/-- Where WRB completes and what it writes: on the writer port, inside the bank, the words go to
consecutive registers and nothing else changes. -/
def Obligations.WrbWritesBatch : Prop :=
  ∀ (start count : Nat) (s : State), s.bus.port = .writer → start + count ≤ s.cfg.n →
    s.bus.win.length = count →
    ∃ t, exec (.wrb start count) s = .next t ∧ t.replyAt .writer = .ok .nothing ∧
      (∀ j < count, t.bank.read (start + j) = s.bus.win.getD j 0) ∧
      s.bankSameOutside start count t ∧ t.k = s.k ∧ s.restSame .writer t

/-- A WRB that reaches past the bank ends in OutOfRange and writes no register at all; that not even
the words inside the bank are written is the spec's decision D8. -/
def Obligations.WrbOutOfRangeWritesNothing : Prop :=
  ∀ (start count : Nat) (s : State), s.bus.port = .writer → s.cfg.n < start + count →
    endsIn (exec (.wrb start count) s) s (.outOfRange start count)

/-- R79: RDR on the writer port or a reader port: the snapshot of the span and no other effect, or
OutOfRange and no word; its packet. -/
def Obligations.RdrSnapshotOrOutOfRange : Prop :=
  (∀ (start count : Nat) (s : State), (∀ c, s.bus.port ≠ .client c) → start + count ≤ s.cfg.n →
    ∃ ws : List Word, returns (exec (.rdr start count) s) s (.words ws) ∧ ws.length = count ∧
      ∀ j < count, ws.getD j 0 = s.bank.read (start + j)) ∧
  (∀ (start count : Nat) (s : State), (∀ c, s.bus.port ≠ .client c) → s.cfg.n < start + count →
    endsIn (exec (.rdr start count) s) s (.outOfRange start count)) ∧
  (∀ a n : Word, ∃ p : Packet, opField p = 9#4 ∧ ordField p = 0#1 ∧ addrField p = a ∧
    countField p = n ∧ decode p = some (.rdr a.toNat n.toNat)) ∧
  ∀ p : Packet, opField p = 9#4 → ordField p ≠ 0#1 → decode p = none

/-- The words an RDR returned stay as they are when a later WRB writes their span (R82), and reading
the span again without a write between returns the same words (R45). -/
def Obligations.ReadResultIsACopy : Prop :=
  ∀ (j start count a n : Nat) (s t u : State) (q : Issue) (ws : List Word),
    s.bus.port = .reader j → exec (.rdr start count) s = .next t →
    t.replyAt (.reader j) = .ok (.words ws) → q.port = .writer →
    exec (.wrb a n) (t.withBus q) = .next u →
    u.replyAt (.reader j) = .ok (.words ws) ∧
      ∃ t', exec (.rdr start count) t = .next t' ∧ t'.replyAt (.reader j) = .ok (.words ws)

/-- Writing a batch twice leaves what writing it once leaves, as data (R45). -/
def Obligations.WrbTwiceIsWrbOnce : Prop :=
  ∀ (start count : Nat) (s t u : State), s.bank.wf → s.bus.port = .writer →
    exec (.wrb start count) s = .next t → exec (.wrb start count) t = .next u → u = t

/-- Empty spans, a decision of the spec (D9): they succeed up to the end of the bank and are
OutOfRange beyond it. -/
def Obligations.EmptySpans : Prop :=
  ∀ (start : Nat) (s : State),
    ((∀ c, s.bus.port ≠ .client c) → start ≤ s.cfg.n →
      returns (exec (.rdr start 0) s) s (.words [])) ∧
    ((∀ c, s.bus.port ≠ .client c) → s.cfg.n < start →
      endsIn (exec (.rdr start 0) s) s (.outOfRange start 0)) ∧
    (s.bus.port = .writer → s.bus.win = [] → start ≤ s.cfg.n →
      returns (exec (.wrb start 0) s) s .nothing) ∧
    (s.bus.port = .writer → s.cfg.n < start →
      endsIn (exec (.wrb start 0) s) s (.outOfRange start 0))

/-- R20, and where CTRPUB completes: on the writer port with room for ten words, one step writes
(K + i) mod 51 to register i and makes K (K + 1) mod 51; nothing else changes. The counters of an
unreduced tick index are those of the reduced one. -/
def Obligations.CtrpubPublishesAndAdvances : Prop :=
  (∀ s : State, s.bus.port = .writer → 10 ≤ s.cfg.n →
    ∃ t, exec .ctrpub s = .next t ∧ t.replyAt .writer = .ok .nothing ∧
      (∀ i < 10, (t.bank.read i).toNat = (s.k.toNat + i) % 51) ∧
      t.k.toNat = (s.k.toNat + 1) % 51 ∧ s.bankSameOutside 0 10 t ∧ s.restSame .writer t) ∧
  ∀ k : Nat, counters k = counters (k % 51)

/-- CTRPUB on a bank of fewer than ten words ends in OutOfRange(0, 10); that K then stays is the
spec's decision D12. -/
def Obligations.CtrpubOutOfRangeKeepsTickIndex : Prop :=
  ∀ s : State, s.bus.port = .writer → s.cfg.n < 10 →
    endsIn (exec .ctrpub s) s (.outOfRange 0 10)

/-- R84: the ten counters of a tick index. -/
def Obligations.CountersFormula : Prop :=
  ∀ k : Nat, (counters k).length = 10 ∧
    ∀ i < 10, ((counters k).getD i 0).toNat = (k + i) % 51

/-- R85: the bound and the shape of the counters. A wrap is a 0 that follows a 50. -/
def Obligations.CountersBoundAndShape : Prop :=
  ∀ k : Nat,
    (∀ i < 10, ((counters k).getD i 0).toNat ≤ 50 ∧
      ((counters k).getD i 0).toNat = (k + i) % 51) ∧
    counters k = counters (k % 51) ∧
    (∀ i < 9, ((counters k).getD (i + 1) 0).toNat = (((counters k).getD i 0).toNat + 1) % 51) ∧
    (counters k).Nodup ∧
    (∀ i < 9, ∀ j < 9, ((counters k).getD i 0).toNat = 50 → (counters k).getD (i + 1) 0 = 0 →
      ((counters k).getD j 0).toNat = 50 → (counters k).getD (j + 1) 0 = 0 → i = j) ∧
    ((∃ i < 9, ((counters k).getD i 0).toNat = 50 ∧ (counters k).getD (i + 1) 0 = 0) ↔
      42 ≤ k % 51) ∧
    ∀ i < 9, (counters (k + 1)).getD i 0 = (counters k).getD (i + 1) 0

/-- R87: after n successful CTRPUB from K = 0, whatever the schedule holds afterwards, K is n mod 51
and register i holds (n - 1 + i) mod 51. -/
def Obligations.CountersAfterManyCtrpubs : Prop :=
  ∀ (n : Nat) (s : State) (later : List Event), s.k = 0#6 → 10 ≤ s.cfg.n →
    s.schedule = List.replicate n ctrpubEvent ++ later →
    ∃ t, run n s = .next t ∧ t.k.toNat = n % 51 ∧ t.schedule = later ∧
      (1 ≤ n → ∀ i < 10, (t.bank.read i).toNat = (n - 1 + i) % 51) ∧ s.bankSameOutside 0 10 t

/-! ## Errors and roles -/

/-- R111 for the ten operations on the block's own ports: which operation raises what, and when. -/
def Obligations.WhichOperationRaisesWhat : Prop :=
  ∀ (i : Instr) (s t : State) (e : Error), (∀ c, s.bus.port ≠ .client c) → exec i s = .next t →
    (t.replyAt s.bus.port = .failed e ↔
      match i with
      | .encf32 _ => False
      | .decf32 _ => False
      | .encf64 _ => False
      | .decf64 _ => False
      | .encu16 => False
      | .decu16 => False
      | .unpk _ count => count < 38 ∧ e = .insufficientData count
      | .wrb start count =>
        (s.bus.port ≠ .writer ∧ e = .illegalCommand s.bus.cmd) ∨
          (s.bus.port = .writer ∧ s.cfg.n < start + count ∧ e = .outOfRange start count)
      | .rdr start count => s.cfg.n < start + count ∧ e = .outOfRange start count
      | .ctrpub =>
        (s.bus.port ≠ .writer ∧ e = .illegalCommand s.bus.cmd) ∨
          (s.bus.port = .writer ∧ s.cfg.n < 10 ∧ e = .outOfRange 0 10))

/-- R116: no operation, from any port, ends in EncodingPrecondition or in TransportError; the latter
comes from the transport and goes to the waiting client past the block. -/
def Obligations.BlockNeverRaisesReservedErrors : Prop :=
  (∀ (q : Issue) (s t : State), issue q s = .next t →
    t.replyAt q.port ≠ .failed .encodingPrecondition ∧
      ∀ cause, t.replyAt q.port ≠ .failed (.transportError cause)) ∧
  ∀ (c cause : Nat) (s : State), (s.client c).request ≠ none →
    ∃ t, clientDeliver c (.error cause) s = .next t ∧
      t.replyAt (.client c) = .failed (.transportError cause) ∧ t.bus = s.bus

/-- WRB and CTRPUB on a reader port end in IllegalCommand with the packet and without effect, whatever
their span: the spec's decision D11. -/
def Obligations.ReaderPortsCannotWrite : Prop :=
  ∀ (j start count : Nat) (s : State), s.bus.port = .reader j →
    endsIn (exec (.wrb start count) s) s (.illegalCommand s.bus.cmd) ∧
      endsIn (exec .ctrpub s) s (.illegalCommand s.bus.cmd)

/-- A model's choice (log 9): a bank operation on a client's own instance, which has no bank, ends in
IllegalCommand without effect. -/
def Obligations.ClientInstancesHaveNoBank : Prop :=
  ∀ (c start count : Nat) (s : State), s.bus.port = .client c →
    endsIn (exec (.wrb start count) s) s (.illegalCommand s.bus.cmd) ∧
      endsIn (exec (.rdr start count) s) s (.illegalCommand s.bus.cmd) ∧
      endsIn (exec .ctrpub s) s (.illegalCommand s.bus.cmd)

/-- A model's choice (log 8): a word operand of another length than the packet says, which no port can
carry, stops the machine by name wherever the operation would have used the words. -/
def Obligations.WrongWordCountStops : Prop :=
  ∀ (o : Order) (start count : Nat) (s : State),
    (s.bus.win.length ≠ 2 → exec (.decf32 o) s = .fault (.wordCount 2 s.bus.win.length)) ∧
    (s.bus.win.length ≠ 4 → exec (.decf64 o) s = .fault (.wordCount 4 s.bus.win.length)) ∧
    (s.bus.win.length ≠ 1 → exec .decu16 s = .fault (.wordCount 1 s.bus.win.length)) ∧
    (38 ≤ count → s.bus.win.length ≠ count →
      exec (.unpk o count) s = .fault (.wordCount count s.bus.win.length)) ∧
    (s.bus.port = .writer → start + count ≤ s.cfg.n → s.bus.win.length ≠ count →
      exec (.wrb start count) s = .fault (.wordCount count s.bus.win.length))

/-- The order of the checks, the spec's decision D15: a malformed packet first, on every port and
whatever its span; then the role; then the operation's own check. -/
def Obligations.ErrorPriority : Prop :=
  (∀ (q : Issue) (s : State), decode q.cmd = none →
    endsIn (issue q s) (s.withBus q) (.illegalCommand q.cmd)) ∧
  (∀ (q : Issue) (j start count : Nat) (s : State), q.port = .reader j →
    decode q.cmd = some (.wrb start count) → s.cfg.n < start + count →
    endsIn (issue q s) (s.withBus q) (.illegalCommand q.cmd)) ∧
  ∀ (q : Issue) (start count : Nat) (s : State), q.port = .writer →
    decode q.cmd = some (.wrb start count) → s.cfg.n < start + count →
    endsIn (issue q s) (s.withBus q) (.outOfRange start count)

/-- R21: the seven pure operations write no state, and their result is a function of the operands
alone, from whatever port and state. -/
def Obligations.PureOperationsUseOperandsOnly : Prop :=
  ∀ (i : Instr) (s s' t : State),
    i.mnemonic ∈ ["ENCF32", "DECF32", "ENCF64", "DECF64", "ENCU16", "DECU16", "UNPK"] →
    s'.bus.vin = s.bus.vin → s'.bus.win = s.bus.win → exec i s = .next t →
    s.onlyReply t ∧ ∃ t', exec i s' = .next t' ∧ t'.replyAt s'.bus.port = t.replyAt s.bus.port

/-- R124: whatever a reader host issues on its port, legal or not, everything a later operation of any
port can observe stays, and so does what every other port shows. -/
def Obligations.ReaderChangesNothingObservable : Prop :=
  ∀ (j : Nat) (q : Issue) (s t : State), q.port = .reader j → issue q s = .next t →
    s.writerSame t ∧ (∀ c, t.client c = s.client c) ∧
      ∀ p, p ≠ .reader j → t.replyAt p = s.replyAt p

/-- Readers and clients never influence the writer host or BANK: a run and the same run with every
event of a reader or client left out end alike for the writer (from R124). -/
def Obligations.ReadersDoNotInfluenceTheWriter : Prop :=
  ∀ (events : List Event) (s t u : State), s.schedule = events →
    run events.length s = .next t →
    run (events.filter fun e => !e.isReading).length
      (s.withSchedule (events.filter fun e => !e.isReading)) = .next u →
    t.writerSame u

/-! ## Encoding -/

/-- A few packets written out from the encodings, and what they decode to (the spec's decisions D3
and D4). -/
def Obligations.SamplePacketsDecode : Prop :=
  decode 0x4100000000#40 = some (.decf64 .littleEndian) ∧
    decode 0x7000000026#40 = some (.unpk .bigEndian 38) ∧
    decode 0x8000140002#40 = some (.wrb 20 2) ∧
    decode 0x9000000026#40 = some (.rdr 0 38) ∧
    decode 0xA000000000#40 = some .ctrpub ∧
    decode 0x0000000000#40 = none ∧ decode 0xB000000000#40 = none ∧
    decode 0x1200000000#40 = none ∧ decode 0x9100000026#40 = none

/-- Decode and encode agree: every well-formed operation, with every operand, is read back from its
packet (the packet is the spec's decision D3). -/
def Obligations.DecodeOfEncode : Prop :=
  ∀ i : Instr, i.wf = true → decode (encode i) = some i

/-- Every legal packet is the packet of the operation it decodes to, which is well formed: no two
packets spell one operation (the spec's decision D4). -/
def Obligations.EncodeOfDecode : Prop :=
  ∀ (p : Packet) (i : Instr), decode p = some i → encode i = p ∧ i.wf = true

/-- The decoder and the match/mask table agree on every one of the 2^40 packets (the spec's decisions
D3 and D4). -/
def Obligations.DecoderAgreesWithTable : Prop :=
  ∀ p : Packet,
    (∀ i, decode p = some i → ∃ r ∈ opTable, r.selects p = true ∧ r.mnemonic = i.mnemonic) ∧
    ∀ r ∈ opTable, r.selects p = true → ∃ i, decode p = some i ∧ i.mnemonic = r.mnemonic

/-! ## The step -/

/-- A step runs the decoded operation: when the next item is a command whose packet decodes to a
well-formed operation, the step is `exec` of it on the state with the item consumed and the command on
its port. -/
def Obligations.StepRunsDecodedCommand : Prop :=
  ∀ (q : Issue) (later : List Event) (s : State) (i : Instr),
    s.schedule = .command q :: later → decode q.cmd = some i → i.wf = true →
    step s = exec i ((s.withSchedule later).withBus q)

/-- A packet that spells no operation: the step ends it with IllegalCommand and no effect, on every
port (the spec's decision D4). -/
def Obligations.StepRefusesIllegalPacket : Prop :=
  ∀ (q : Issue) (later : List Event) (s : State),
    s.schedule = .command q :: later → decode q.cmd = none →
    endsIn (step s) ((s.withSchedule later).withBus q) (.illegalCommand q.cmd)

/-- After reset under any configuration: BANK zero, K zero, W in Running, STOP not asserted, CFG as
configured, nothing returned on any port; with nothing scheduled the block waits. What a port shows
before its first operation is the model's choice (log 6), and so is it that every client's own order is
then BigEndian, whatever CFG is (log 18). -/
def Obligations.ResetState : Prop :=
  (∀ c : Cfg, (∀ a, (State.resetWith c).bank.read a = 0#16) ∧ (State.resetWith c).k = 0#6 ∧
    (State.resetWith c).loop = .running ∧ (State.resetWith c).stop = false ∧
    (State.resetWith c).cfg = c ∧ (∀ p, (State.resetWith c).replyAt p = .idle) ∧
    (∀ x, ((State.resetWith c).client x).order = .bigEndian) ∧
    step (State.resetWith c) = .next (State.resetWith c)) ∧
  State.reset = State.resetWith Cfg.default ∧ Cfg.default.n = 100 ∧
  Cfg.default.order = .bigEndian ∧ Cfg.default.updateS.value = 1 ∧
  Cfg.default.backoffS.value = 5

/-- Only WRB and CTRPUB change BANK, only CTRPUB changes K, both only on the writer port, and nothing
changes CFG: whatever any agent does in a step. -/
def Obligations.OnlyWriterCommandsChangeBank : Prop :=
  ∀ s t : State, step s = .next t →
    t.cfg = s.cfg ∧
    (t.bank ≠ s.bank → t.bus.port = .writer ∧ ∃ i, decode t.bus.cmd = some i ∧
      (i = .ctrpub ∨ ∃ start count, i = .wrb start count)) ∧
    (t.k ≠ s.k → t.bus.port = .writer ∧ decode t.bus.cmd = some .ctrpub)

/-- The invariant holds after reset under every configuration within its bounds. -/
def Obligations.InvHoldsAtReset : Prop :=
  Inv State.reset ∧ ∀ c : Cfg, c.wf → Inv (State.resetWith c)

/-- Every step of every agent keeps the invariant: BANK canonical and within its N words, K in 0..50,
ErrorBackoff only asleep, elapsed time never negative. -/
def Obligations.StepKeepsInv : Prop :=
  ∀ s t : State, Inv s → step s = .next t → Inv t

/-- Every command has an outcome: from a state whose commands are ones a host can present, each step
is a next state, and so is every later one. -/
def Obligations.PresentableStateNeverStops : Prop :=
  ∀ s : State, s.presentable → ∃ t, step s = .next t ∧ t.presentable

/-! ## The writer host -/

/-- The address map: no two entries overlap, and every entry is as long as its values' encoded width
(1 word for a uint16, 2 for a float32, 4 for a float64); and the fourteen logical values of a tick
occupy ranges of their encoded width that do not overlap, each inside the entry of its kind. -/
def Obligations.AddressMapIsSound : Prop :=
  (∀ a : Nat, ∀ e ∈ addressMap, ∀ e' ∈ addressMap, e.covers a = true → e'.covers a = true → e = e') ∧
    (∀ (v : LogicalValue) (o : Order), (v.words o).length = v.length ∧
      ∀ e ∈ addressMap, e.kind = v.kind → e.length = e.items * v.length) ∧
    ∀ (k : Nat) (p : Patterns),
      (tickValues k p).length = 14 ∧
      (tickValues k p).Pairwise (fun v w => v.start + v.length ≤ w.start) ∧
      ∀ v ∈ tickValues k p, ∃ e ∈ addressMap, e.kind = v.kind ∧ e.start ≤ v.start ∧
        v.start + v.length ≤ e.start + e.length

/-- The writer port left to the UpdateLoop holds after reset: no register of no logical value is
written. -/
def Obligations.HostInvHoldsAtReset : Prop :=
  ∀ (c : Cfg) (events : List Event), (∀ e ∈ events, e.sparesWriterPort = true) →
    HostInv ((State.resetWith c).withSchedule events)

/-- As long as the writer port is left to the UpdateLoop, the registers of no logical value hold
0x0000 and every write of a tick is one whole entry of the address map, whatever readers and clients do
and whichever step of a tick fails. -/
def Obligations.StepKeepsHostInv : Prop :=
  ∀ s t : State, HostInv s → step s = .next t → HostInv t

/-- No torn value: while the writer port is left to the UpdateLoop, a step leaves the registers of an
entry of the address map all as they were, or makes all of them the words of one batch. -/
def Obligations.EntriesChangeAsAWhole : Prop :=
  ∀ s t : State, HostInv s → step s = .next t → ∀ e ∈ addressMap,
    memRead t.bank e.start e.length = memRead s.bank e.start e.length ∨
    (∃ elapsed rest words, s.phase = .ticking elapsed (.write (BitVec.ofNat 16 e.start) :: rest) words ∧
      words.length = e.length ∧ memRead t.bank e.start e.length = words) ∨
    (∃ elapsed rest words, s.phase = .ticking elapsed (.counters :: rest) words ∧ e.kind = .uint16 ∧
      memRead t.bank e.start e.length = counters s.k.toNat)

/-- A whole tick: ten turns of W from a tick boundary, with nothing between, write the entries that lie
inside the bank, in the order of the batches, up to the first that does not fit; K advances if the
counters were written; then W sleeps, in Running if all five fitted and in ErrorBackoff otherwise.
In a bank that holds the map, the range of each of the tick's fourteen logical values then holds its
words. That a tick ends at its first failing step and nothing is rolled back is the spec's decision D16;
that it is ten steps, its beginning and nine commands, is log 15. -/
def Obligations.TickPublishesWhatFits : Prop :=
  ∀ (s : State) (p : Patterns) (later : List Event),
    s.cfg.wf → s.phase = .boundary → s.stop = false → s.loop = .running →
    s.schedule = List.replicate 10 (.writerTurn p) ++ later →
    ∃ t, run 10 s = .next t ∧ t.schedule = later ∧ t.cfg = s.cfg ∧ t.now = s.now ∧
      t.k.toNat = (if 10 ≤ s.cfg.n then (s.k.toNat + 1) % 51 else s.k.toNat) ∧
      memRead t.bank 0 10 =
        (if 10 ≤ s.cfg.n then counters s.k.toNat else memRead s.bank 0 10) ∧
      memRead t.bank 20 2 =
        (if 22 ≤ s.cfg.n then encF32 p.sine s.cfg.order else memRead s.bank 20 2) ∧
      memRead t.bank 22 2 =
        (if 24 ≤ s.cfg.n then encF32 p.cosine s.cfg.order else memRead s.bank 22 2) ∧
      memRead t.bank 30 4 =
        (if 34 ≤ s.cfg.n then encF64 p.ramp s.cfg.order else memRead s.bank 30 4) ∧
      memRead t.bank 34 4 =
        (if 38 ≤ s.cfg.n then encF64 p.triangle s.cfg.order else memRead s.bank 34 4) ∧
      (∀ a, isMapped a = false → t.bank.read a = s.bank.read a) ∧
      (38 ≤ s.cfg.n → ∀ v ∈ tickValues s.k.toNat p,
        memRead t.bank v.start v.length = v.words s.cfg.order) ∧
      ∃ wakeAt, t.phase = .sleeping wakeAt ∧
        (if 38 ≤ s.cfg.n then
          t.loop = .running ∧ wakeAt.value = s.now.value + s.cfg.updateS.value
        else t.loop = .errorBackoff ∧ wakeAt.value = s.now.value + s.cfg.backoffS.value)

/-- The writer host between ticks: its first turn takes startTime; at a boundary STOP ends it, else a
tick begins with the elapsed time; asleep it waits; at the end of a sleep it is in Running at a
boundary; once it has exited it does nothing. That the end of ErrorBackoff is a tick boundary is the
spec's decision D16. -/
def Obligations.WriterLoopBetweenTicks : Prop :=
  ∀ (s : State) (p : Patterns),
    (s.phase = .starting → writerTurn p s = .next ((s.withStartTime s.now).withPhase .boundary)) ∧
    (s.phase = .boundary → s.stop = true → writerTurn p s = .next (s.withPhase .exited)) ∧
    (s.phase = .boundary → s.stop = false → ∃ t elapsed, writerTurn p s = .next t ∧
      t.phase = .ticking elapsed (tick p) [] ∧ elapsed.value = s.now.value - s.startTime.value ∧
      t.bank = s.bank ∧ t.k = s.k) ∧
    (∀ w, s.phase = .sleeping w → s.now.value < w.value → writerTurn p s = .next s) ∧
    (∀ w, s.phase = .sleeping w → w.value ≤ s.now.value → ∃ t, writerTurn p s = .next t ∧
      t.phase = .boundary ∧ t.loop = .running ∧ t.bank = s.bank ∧ t.k = s.k) ∧
    (s.phase = .exited → writerTurn p s = .next s)

/-- Only STOP ends the writer host, and only at a tick boundary: a step after which W has exited found
it exited, or at a boundary with STOP asserted; and no step leaves that state. -/
def Obligations.WriterExitsOnlyOnStopAtBoundary : Prop :=
  ∀ s t : State, step s = .next t →
    (t.phase = .exited → s.phase = .exited ∨ (s.phase = .boundary ∧ s.stop = true)) ∧
    (s.phase = .exited → t.phase = .exited)

/-- R120 as entry and return: ErrorBackoff is entered only by a failing step of a tick, which leaves
the rest of the tick unissued, and left only for Running at a tick boundary once CFG.BACKOFF_S has
passed. -/
def Obligations.ErrorBackoffEntryAndReturn : Prop :=
  ∀ s t : State, step s = .next t →
    (s.loop = .running → t.loop = .errorBackoff →
      (∃ elapsed todo words, s.phase = .ticking elapsed todo words) ∧
        (∃ e, t.wReply = .failed e) ∧ t.bank = s.bank ∧ t.k = s.k ∧
        ∃ wakeAt, t.phase = .sleeping wakeAt ∧
          wakeAt.value = s.now.value + s.cfg.backoffS.value) ∧
    (s.loop = .errorBackoff → t.loop = .running →
      ∃ w, s.phase = .sleeping w ∧ w.value ≤ s.now.value ∧ t.phase = .boundary)

/-! ## Readers and clients -/

/-- SERVERREAD is one RDR on the reader's own port (R106). -/
def Obligations.ServerReadIsOneRdr : Prop :=
  ∀ (j : Nat) (start count : Word) (s : State),
    ∃ q : Issue, q.port = .reader j ∧
      serverRead j start count s = exec (.rdr start.toNat count.toNat) (s.withBus q)

/-- CLIENTREAD from a bank that holds the map: the request and then the delivery of the first m words
give the fields of the bank as it was at the request, under the client's own order, or
InsufficientData with the number delivered when fewer than 38 arrive. How the transport may shorten a
delivery is the model's choice (log 17). -/
def Obligations.ClientReadReturnsTheBank : Prop :=
  ∀ (c j m : Nat) (s : State) (later : List Event), 38 ≤ s.cfg.n → (s.client c).request = none →
    s.schedule = .clientRequest c j :: .clientDeliver c (.first m) :: later →
    ∃ t, run 2 s = .next t ∧ t.schedule = later ∧ s.writerSame t ∧
      t.replyAt (.client c) =
        (if 38 ≤ m then .ok (.fields (unpack (s.client c).order (memRead s.bank 0 38)))
          else .failed (.insufficientData m))

/-- R108: a transport error reaches the waiting client as it is, UNPK is not issued, and no retry
follows: the request is over. -/
def Obligations.TransportErrorPassesThrough : Prop :=
  ∀ (c cause : Nat) (s : State) (later : List Event), (s.client c).request ≠ none →
    s.schedule = .clientDeliver c (.error cause) :: later →
    ∃ t, step s = .next t ∧ t.replyAt (.client c) = .failed (.transportError cause) ∧
      (t.client c).request = none ∧ t.bus = s.bus ∧ s.writerSame t ∧
      ∀ p, p ≠ .client c → t.replyAt p = s.replyAt p

/-- From the writer's patterns to the client's fields: after a whole tick on a bank that holds the
map, a client whose order is the writer's reads back the ten counters and the four patterns bit for
bit. That the transport delivers the words the server read, all of them and unchanged, is the model's
choice (log 17); that a tick is ten steps is log 15. -/
def Obligations.ClientReadsWhatTheTickPublished : Prop :=
  ∀ (s : State) (p : Patterns) (c j : Nat),
    s.cfg.wf → 38 ≤ s.cfg.n → s.phase = .boundary → s.stop = false → s.loop = .running →
    (s.client c).request = none → (s.client c).order = s.cfg.order →
    s.schedule =
      List.replicate 10 (.writerTurn p) ++ [.clientRequest c j, .clientDeliver c (.first 38)] →
    ∃ t, run 12 s = .next t ∧ t.replyAt (.client c) = .ok (.fields
      { ctr := counters s.k.toNat, sine := p.sine, cosine := p.cosine, ramp := p.ramp,
        triangle := p.triangle })

/-- R104's bounds of the host's signal functions, for every real t, the values at t = 0 and the document's
ramp values. The real-number mod is taken from general knowledge (log 21), and triangle at 0 is that of
the formula (90_conflicts.md C6). -/
def Obligations.SignalBounds : Prop :=
  (∀ t : ℝ, -1 ≤ sine t ∧ sine t ≤ 1) ∧ (∀ t : ℝ, -1 ≤ cosine t ∧ cosine t ≤ 1) ∧
    (∀ t : ℝ, 0 ≤ ramp t ∧ ramp t < 100) ∧ (∀ t : ℝ, -50 ≤ triangle t ∧ triangle t ≤ 50) ∧
    sine 0 = 0 ∧ cosine 0 = 1 ∧ ramp 0 = 0 ∧ ramp 50 = 50 ∧ ramp 110 = 10 ∧ triangle 0 = 50 ∧
    triangle 10 = -50
end

