-- ==== Sys2Proof/Laws/Clock.lean ====
section
/-! SUPPORT. Times are compared, added and subtracted as the real numbers they are. -/

namespace Sys2Proof

/-- A named time may be any real number: the type of `Config.realTimes` leaves none out. -/
theorem RealTimes.every_real (r : ℝ) : ∃ m : RealTimes, m.reals 0 = r :=
  ⟨{ reals := fun _ => r, decideBefore := fun _ _ => Classical.propDecidable _ }, rfl⟩

@[simp] theorem Seconds.value_rational (q : Rat) : (Seconds.rational q).value = q := rfl

theorem Seconds.before_iff (x y : Seconds) : x.before y = true ↔ x.value < y.value := by
  unfold Seconds.before
  split
  · simp
  · exact @decide_eq_true_iff _ (Config.times.decideBefore x y)

theorem Seconds.not_before_iff (x y : Seconds) : ¬ x.before y = true ↔ y.value ≤ x.value := by
  rw [Seconds.before_iff, not_lt]

@[simp] theorem Seconds.add_value (x y : Seconds) : (x.add y).value = x.value + y.value := by
  unfold Seconds.add
  split
  · simp
  · rfl

@[simp] theorem Seconds.sub_value (x y : Seconds) : (x.sub y).value = x.value - y.value := by
  unfold Seconds.sub
  split
  · simp
  · rfl

end Sys2Proof
end

