-- ==== Sys2Proof/Laws/Decode.lean ====
section
/-! SUPPORT. What the fields of an assembled packet are, and that a packet is its fields. -/

namespace Sys2Proof

variable (op : BitVec 4) (ord : BitVec 1) (addr count : BitVec 16)

theorem opField_assemble : opField (assemble op ord addr count) = op := by
  unfold opField assemble
  ext i hi
  simp only [BitVec.getElem_extractLsb', BitVec.getLsbD_append]
  rw [if_neg (by omega), if_neg (by omega), if_neg (by omega), if_neg (by omega)]
  rw [BitVec.getLsbD_eq_getElem (by omega)]
  congr 1
  omega

theorem rsvField_assemble : rsvField (assemble op ord addr count) = 0#3 := by
  unfold rsvField assemble
  ext i hi
  simp only [BitVec.getElem_extractLsb', BitVec.getLsbD_append]
  rw [if_neg (by omega), if_neg (by omega), if_neg (by omega), if_pos (by omega)]
  simp

theorem ordField_assemble : ordField (assemble op ord addr count) = ord := by
  unfold ordField assemble
  ext i hi
  simp only [BitVec.getElem_extractLsb', BitVec.getLsbD_append]
  rw [if_neg (by omega), if_neg (by omega), if_pos (by omega)]
  rw [BitVec.getLsbD_eq_getElem (by omega)]
  congr 1
  omega

theorem addrField_assemble : addrField (assemble op ord addr count) = addr := by
  unfold addrField assemble
  ext i hi
  simp only [BitVec.getElem_extractLsb', BitVec.getLsbD_append]
  rw [if_neg (by omega), if_pos (by omega)]
  rw [BitVec.getLsbD_eq_getElem (by omega)]
  congr 1
  omega

theorem countField_assemble : countField (assemble op ord addr count) = count := by
  unfold countField assemble
  ext i hi
  simp only [BitVec.getElem_extractLsb', BitVec.getLsbD_append]
  rw [if_pos (by omega)]
  rw [BitVec.getLsbD_eq_getElem (by omega)]
  congr 1
  omega

/-- A packet whose reserved bits are zero is assembled from its fields. -/
theorem assemble_fields {p : Packet} (h : rsvField p = 0#3) :
    assemble (opField p) (ordField p) (addrField p) (countField p) = p := by
  rw [assemble, ← h]
  unfold opField rsvField ordField addrField countField
  ext i hi
  simp only [BitVec.getElem_append, BitVec.getElem_extractLsb']
  split_ifs <;> rw [← BitVec.getLsbD_eq_getElem] <;> congr 1 <;> omega

@[simp] theorem orderOfBit_bitOfOrder (o : Order) : orderOfBit (bitOfOrder o) = o := by
  cases o <;> rfl

theorem bitOfOrder_orderOfBit (b : BitVec 1) : bitOfOrder (orderOfBit b) = b := by
  revert b
  decide

/-! ### All that a packet can spell -/

/-- The packet spells the operation: its fields are the ones the operation's row asks for (R57). -/
inductive Spells (p : Packet) : Instr → Prop where
  | encf32 (op : opField p = 1#4) (a : addrField p = 0#16) (c : countField p = 0#16) :
      Spells p (.encf32 (orderOfBit (ordField p)))
  | decf32 (op : opField p = 2#4) (a : addrField p = 0#16) (c : countField p = 0#16) :
      Spells p (.decf32 (orderOfBit (ordField p)))
  | encf64 (op : opField p = 3#4) (a : addrField p = 0#16) (c : countField p = 0#16) :
      Spells p (.encf64 (orderOfBit (ordField p)))
  | decf64 (op : opField p = 4#4) (a : addrField p = 0#16) (c : countField p = 0#16) :
      Spells p (.decf64 (orderOfBit (ordField p)))
  | encu16 (op : opField p = 5#4) (o : ordField p = 0#1) (a : addrField p = 0#16)
      (c : countField p = 0#16) : Spells p .encu16
  | decu16 (op : opField p = 6#4) (o : ordField p = 0#1) (a : addrField p = 0#16)
      (c : countField p = 0#16) : Spells p .decu16
  | unpk (op : opField p = 7#4) (a : addrField p = 0#16) :
      Spells p (.unpk (orderOfBit (ordField p)) (countField p).toNat)
  | wrb (op : opField p = 8#4) (o : ordField p = 0#1) :
      Spells p (.wrb (addrField p).toNat (countField p).toNat)
  | rdr (op : opField p = 9#4) (o : ordField p = 0#1) :
      Spells p (.rdr (addrField p).toNat (countField p).toNat)
  | ctrpub (op : opField p = 10#4) (o : ordField p = 0#1) (a : addrField p = 0#16)
      (c : countField p = 0#16) : Spells p .ctrpub

theorem whenZero_eq_some {b : Bool} {i j : Instr} (h : whenZero b i = some j) :
    b = true ∧ j = i := by
  unfold whenZero at h
  split at h
  · exact ⟨by assumption, (Option.some.inj h).symm⟩
  · cases h

/-- What `decode` answers is what the packet spells, with RSV zero. -/
theorem decode_spells {p : Packet} {i : Instr} (h : decode p = some i) :
    rsvField p = 0#3 ∧ Spells p i := by
  unfold decode at h
  dsimp only at h
  split at h
  · rename_i hr
    refine ⟨hr, ?_⟩
    have hop : ∀ n, (opField p).toNat = n → opField p = BitVec.ofNat 4 n := by
      intro n hn
      rw [← hn, BitVec.ofNat_toNat, BitVec.setWidth_eq]
    split at h
    case h_11 => cases h
    all_goals
      rename_i hn
      have hop := hop _ hn
      obtain ⟨hz, rfl⟩ := whenZero_eq_some h
      simp only [Bool.and_eq_true, beq_iff_eq] at hz
    · exact .encf32 hop hz.1 hz.2
    · exact .decf32 hop hz.1 hz.2
    · exact .encf64 hop hz.1 hz.2
    · exact .decf64 hop hz.1 hz.2
    · exact .encu16 hop hz.1.1 hz.1.2 hz.2
    · exact .decu16 hop hz.1.1 hz.1.2 hz.2
    · exact .unpk hop hz
    · exact .wrb hop hz
    · exact .rdr hop hz
    · exact .ctrpub hop hz.1.1 hz.1.2 hz.2
  · cases h

end Sys2Proof
end

