-- ==== Sys2Proof/Laws/State.lean ====
section
/-! SUPPORT. One lemma per field per update of State, each true by rfl, and what the updates of ports
and clients leave alone. -/

namespace Sys2Proof.Machine

variable (s : State)

/-! ### withBank -/

@[simp] theorem State.withBank_cfg (m : Memory) : (s.withBank m).cfg = s.cfg := rfl
@[simp] theorem State.withBank_bank (m : Memory) : (s.withBank m).bank = m := rfl
@[simp] theorem State.withBank_k (m : Memory) : (s.withBank m).k = s.k := rfl
@[simp] theorem State.withBank_bus (m : Memory) : (s.withBank m).bus = s.bus := rfl
@[simp] theorem State.withBank_wReply (m : Memory) : (s.withBank m).wReply = s.wReply := rfl
@[simp] theorem State.withBank_readers (m : Memory) : (s.withBank m).readers = s.readers := rfl
@[simp] theorem State.withBank_clients (m : Memory) : (s.withBank m).clients = s.clients := rfl
@[simp] theorem State.withBank_loop (m : Memory) : (s.withBank m).loop = s.loop := rfl
@[simp] theorem State.withBank_stop (m : Memory) : (s.withBank m).stop = s.stop := rfl
@[simp] theorem State.withBank_startTime (m : Memory) : (s.withBank m).startTime = s.startTime := rfl
@[simp] theorem State.withBank_now (m : Memory) : (s.withBank m).now = s.now := rfl
@[simp] theorem State.withBank_phase (m : Memory) : (s.withBank m).phase = s.phase := rfl
@[simp] theorem State.withBank_schedule (m : Memory) : (s.withBank m).schedule = s.schedule := rfl
@[simp] theorem State.withBank_client (m : Memory) (c : Nat) : (s.withBank m).client c = s.client c := rfl
@[simp] theorem State.withBank_replyAt (m : Memory) (p : Port) :
    (s.withBank m).replyAt p = s.replyAt p := by cases p <;> rfl

/-! ### withK -/

@[simp] theorem State.withK_cfg (x : BitVec 6) : (s.withK x).cfg = s.cfg := rfl
@[simp] theorem State.withK_bank (x : BitVec 6) : (s.withK x).bank = s.bank := rfl
@[simp] theorem State.withK_k (x : BitVec 6) : (s.withK x).k = x := rfl
@[simp] theorem State.withK_bus (x : BitVec 6) : (s.withK x).bus = s.bus := rfl
@[simp] theorem State.withK_wReply (x : BitVec 6) : (s.withK x).wReply = s.wReply := rfl
@[simp] theorem State.withK_readers (x : BitVec 6) : (s.withK x).readers = s.readers := rfl
@[simp] theorem State.withK_clients (x : BitVec 6) : (s.withK x).clients = s.clients := rfl
@[simp] theorem State.withK_loop (x : BitVec 6) : (s.withK x).loop = s.loop := rfl
@[simp] theorem State.withK_stop (x : BitVec 6) : (s.withK x).stop = s.stop := rfl
@[simp] theorem State.withK_startTime (x : BitVec 6) : (s.withK x).startTime = s.startTime := rfl
@[simp] theorem State.withK_now (x : BitVec 6) : (s.withK x).now = s.now := rfl
@[simp] theorem State.withK_phase (x : BitVec 6) : (s.withK x).phase = s.phase := rfl
@[simp] theorem State.withK_schedule (x : BitVec 6) : (s.withK x).schedule = s.schedule := rfl
@[simp] theorem State.withK_client (x : BitVec 6) (c : Nat) : (s.withK x).client c = s.client c := rfl
@[simp] theorem State.withK_replyAt (x : BitVec 6) (p : Port) :
    (s.withK x).replyAt p = s.replyAt p := by cases p <;> rfl

/-! ### withBus -/

@[simp] theorem State.withBus_cfg (q : Issue) : (s.withBus q).cfg = s.cfg := rfl
@[simp] theorem State.withBus_bank (q : Issue) : (s.withBus q).bank = s.bank := rfl
@[simp] theorem State.withBus_k (q : Issue) : (s.withBus q).k = s.k := rfl
@[simp] theorem State.withBus_bus (q : Issue) : (s.withBus q).bus = q := rfl
@[simp] theorem State.withBus_wReply (q : Issue) : (s.withBus q).wReply = s.wReply := rfl
@[simp] theorem State.withBus_readers (q : Issue) : (s.withBus q).readers = s.readers := rfl
@[simp] theorem State.withBus_clients (q : Issue) : (s.withBus q).clients = s.clients := rfl
@[simp] theorem State.withBus_loop (q : Issue) : (s.withBus q).loop = s.loop := rfl
@[simp] theorem State.withBus_stop (q : Issue) : (s.withBus q).stop = s.stop := rfl
@[simp] theorem State.withBus_startTime (q : Issue) : (s.withBus q).startTime = s.startTime := rfl
@[simp] theorem State.withBus_now (q : Issue) : (s.withBus q).now = s.now := rfl
@[simp] theorem State.withBus_phase (q : Issue) : (s.withBus q).phase = s.phase := rfl
@[simp] theorem State.withBus_schedule (q : Issue) : (s.withBus q).schedule = s.schedule := rfl
@[simp] theorem State.withBus_client (q : Issue) (c : Nat) : (s.withBus q).client c = s.client c := rfl
@[simp] theorem State.withBus_replyAt (q : Issue) (p : Port) :
    (s.withBus q).replyAt p = s.replyAt p := by cases p <;> rfl

/-! ### withLoop -/

@[simp] theorem State.withLoop_cfg (l : Loop) : (s.withLoop l).cfg = s.cfg := rfl
@[simp] theorem State.withLoop_bank (l : Loop) : (s.withLoop l).bank = s.bank := rfl
@[simp] theorem State.withLoop_k (l : Loop) : (s.withLoop l).k = s.k := rfl
@[simp] theorem State.withLoop_bus (l : Loop) : (s.withLoop l).bus = s.bus := rfl
@[simp] theorem State.withLoop_wReply (l : Loop) : (s.withLoop l).wReply = s.wReply := rfl
@[simp] theorem State.withLoop_readers (l : Loop) : (s.withLoop l).readers = s.readers := rfl
@[simp] theorem State.withLoop_clients (l : Loop) : (s.withLoop l).clients = s.clients := rfl
@[simp] theorem State.withLoop_loop (l : Loop) : (s.withLoop l).loop = l := rfl
@[simp] theorem State.withLoop_stop (l : Loop) : (s.withLoop l).stop = s.stop := rfl
@[simp] theorem State.withLoop_startTime (l : Loop) : (s.withLoop l).startTime = s.startTime := rfl
@[simp] theorem State.withLoop_now (l : Loop) : (s.withLoop l).now = s.now := rfl
@[simp] theorem State.withLoop_phase (l : Loop) : (s.withLoop l).phase = s.phase := rfl
@[simp] theorem State.withLoop_schedule (l : Loop) : (s.withLoop l).schedule = s.schedule := rfl
@[simp] theorem State.withLoop_client (l : Loop) (c : Nat) : (s.withLoop l).client c = s.client c := rfl
@[simp] theorem State.withLoop_replyAt (l : Loop) (p : Port) :
    (s.withLoop l).replyAt p = s.replyAt p := by cases p <;> rfl

/-! ### withStop -/

@[simp] theorem State.withStop_cfg (b : Bool) : (s.withStop b).cfg = s.cfg := rfl
@[simp] theorem State.withStop_bank (b : Bool) : (s.withStop b).bank = s.bank := rfl
@[simp] theorem State.withStop_k (b : Bool) : (s.withStop b).k = s.k := rfl
@[simp] theorem State.withStop_bus (b : Bool) : (s.withStop b).bus = s.bus := rfl
@[simp] theorem State.withStop_wReply (b : Bool) : (s.withStop b).wReply = s.wReply := rfl
@[simp] theorem State.withStop_readers (b : Bool) : (s.withStop b).readers = s.readers := rfl
@[simp] theorem State.withStop_clients (b : Bool) : (s.withStop b).clients = s.clients := rfl
@[simp] theorem State.withStop_loop (b : Bool) : (s.withStop b).loop = s.loop := rfl
@[simp] theorem State.withStop_stop (b : Bool) : (s.withStop b).stop = b := rfl
@[simp] theorem State.withStop_startTime (b : Bool) : (s.withStop b).startTime = s.startTime := rfl
@[simp] theorem State.withStop_now (b : Bool) : (s.withStop b).now = s.now := rfl
@[simp] theorem State.withStop_phase (b : Bool) : (s.withStop b).phase = s.phase := rfl
@[simp] theorem State.withStop_schedule (b : Bool) : (s.withStop b).schedule = s.schedule := rfl
@[simp] theorem State.withStop_client (b : Bool) (c : Nat) : (s.withStop b).client c = s.client c := rfl
@[simp] theorem State.withStop_replyAt (b : Bool) (p : Port) :
    (s.withStop b).replyAt p = s.replyAt p := by cases p <;> rfl

/-! ### withStartTime -/

@[simp] theorem State.withStartTime_cfg (t : Seconds) : (s.withStartTime t).cfg = s.cfg := rfl
@[simp] theorem State.withStartTime_bank (t : Seconds) : (s.withStartTime t).bank = s.bank := rfl
@[simp] theorem State.withStartTime_k (t : Seconds) : (s.withStartTime t).k = s.k := rfl
@[simp] theorem State.withStartTime_bus (t : Seconds) : (s.withStartTime t).bus = s.bus := rfl
@[simp] theorem State.withStartTime_wReply (t : Seconds) : (s.withStartTime t).wReply = s.wReply := rfl
@[simp] theorem State.withStartTime_readers (t : Seconds) : (s.withStartTime t).readers = s.readers := rfl
@[simp] theorem State.withStartTime_clients (t : Seconds) : (s.withStartTime t).clients = s.clients := rfl
@[simp] theorem State.withStartTime_loop (t : Seconds) : (s.withStartTime t).loop = s.loop := rfl
@[simp] theorem State.withStartTime_stop (t : Seconds) : (s.withStartTime t).stop = s.stop := rfl
@[simp] theorem State.withStartTime_startTime (t : Seconds) : (s.withStartTime t).startTime = t := rfl
@[simp] theorem State.withStartTime_now (t : Seconds) : (s.withStartTime t).now = s.now := rfl
@[simp] theorem State.withStartTime_phase (t : Seconds) : (s.withStartTime t).phase = s.phase := rfl
@[simp] theorem State.withStartTime_schedule (t : Seconds) : (s.withStartTime t).schedule = s.schedule := rfl
@[simp] theorem State.withStartTime_client (t : Seconds) (c : Nat) : (s.withStartTime t).client c = s.client c := rfl
@[simp] theorem State.withStartTime_replyAt (t : Seconds) (p : Port) :
    (s.withStartTime t).replyAt p = s.replyAt p := by cases p <;> rfl

/-! ### withNow -/

@[simp] theorem State.withNow_cfg (t : Seconds) : (s.withNow t).cfg = s.cfg := rfl
@[simp] theorem State.withNow_bank (t : Seconds) : (s.withNow t).bank = s.bank := rfl
@[simp] theorem State.withNow_k (t : Seconds) : (s.withNow t).k = s.k := rfl
@[simp] theorem State.withNow_bus (t : Seconds) : (s.withNow t).bus = s.bus := rfl
@[simp] theorem State.withNow_wReply (t : Seconds) : (s.withNow t).wReply = s.wReply := rfl
@[simp] theorem State.withNow_readers (t : Seconds) : (s.withNow t).readers = s.readers := rfl
@[simp] theorem State.withNow_clients (t : Seconds) : (s.withNow t).clients = s.clients := rfl
@[simp] theorem State.withNow_loop (t : Seconds) : (s.withNow t).loop = s.loop := rfl
@[simp] theorem State.withNow_stop (t : Seconds) : (s.withNow t).stop = s.stop := rfl
@[simp] theorem State.withNow_startTime (t : Seconds) : (s.withNow t).startTime = s.startTime := rfl
@[simp] theorem State.withNow_now (t : Seconds) : (s.withNow t).now = t := rfl
@[simp] theorem State.withNow_phase (t : Seconds) : (s.withNow t).phase = s.phase := rfl
@[simp] theorem State.withNow_schedule (t : Seconds) : (s.withNow t).schedule = s.schedule := rfl
@[simp] theorem State.withNow_client (t : Seconds) (c : Nat) : (s.withNow t).client c = s.client c := rfl
@[simp] theorem State.withNow_replyAt (t : Seconds) (p : Port) :
    (s.withNow t).replyAt p = s.replyAt p := by cases p <;> rfl

/-! ### withPhase -/

@[simp] theorem State.withPhase_cfg (p : Phase) : (s.withPhase p).cfg = s.cfg := rfl
@[simp] theorem State.withPhase_bank (p : Phase) : (s.withPhase p).bank = s.bank := rfl
@[simp] theorem State.withPhase_k (p : Phase) : (s.withPhase p).k = s.k := rfl
@[simp] theorem State.withPhase_bus (p : Phase) : (s.withPhase p).bus = s.bus := rfl
@[simp] theorem State.withPhase_wReply (p : Phase) : (s.withPhase p).wReply = s.wReply := rfl
@[simp] theorem State.withPhase_readers (p : Phase) : (s.withPhase p).readers = s.readers := rfl
@[simp] theorem State.withPhase_clients (p : Phase) : (s.withPhase p).clients = s.clients := rfl
@[simp] theorem State.withPhase_loop (p : Phase) : (s.withPhase p).loop = s.loop := rfl
@[simp] theorem State.withPhase_stop (p : Phase) : (s.withPhase p).stop = s.stop := rfl
@[simp] theorem State.withPhase_startTime (p : Phase) : (s.withPhase p).startTime = s.startTime := rfl
@[simp] theorem State.withPhase_now (p : Phase) : (s.withPhase p).now = s.now := rfl
@[simp] theorem State.withPhase_phase (p : Phase) : (s.withPhase p).phase = p := rfl
@[simp] theorem State.withPhase_schedule (p : Phase) : (s.withPhase p).schedule = s.schedule := rfl
@[simp] theorem State.withPhase_client (p : Phase) (c : Nat) : (s.withPhase p).client c = s.client c := rfl
@[simp] theorem State.withPhase_replyAt (p : Phase) (q : Port) :
    (s.withPhase p).replyAt q = s.replyAt q := by cases q <;> rfl

/-! ### withSchedule -/

@[simp] theorem State.withSchedule_cfg (es : List Event) : (s.withSchedule es).cfg = s.cfg := rfl
@[simp] theorem State.withSchedule_bank (es : List Event) : (s.withSchedule es).bank = s.bank := rfl
@[simp] theorem State.withSchedule_k (es : List Event) : (s.withSchedule es).k = s.k := rfl
@[simp] theorem State.withSchedule_bus (es : List Event) : (s.withSchedule es).bus = s.bus := rfl
@[simp] theorem State.withSchedule_wReply (es : List Event) : (s.withSchedule es).wReply = s.wReply := rfl
@[simp] theorem State.withSchedule_readers (es : List Event) : (s.withSchedule es).readers = s.readers := rfl
@[simp] theorem State.withSchedule_clients (es : List Event) : (s.withSchedule es).clients = s.clients := rfl
@[simp] theorem State.withSchedule_loop (es : List Event) : (s.withSchedule es).loop = s.loop := rfl
@[simp] theorem State.withSchedule_stop (es : List Event) : (s.withSchedule es).stop = s.stop := rfl
@[simp] theorem State.withSchedule_startTime (es : List Event) : (s.withSchedule es).startTime = s.startTime := rfl
@[simp] theorem State.withSchedule_now (es : List Event) : (s.withSchedule es).now = s.now := rfl
@[simp] theorem State.withSchedule_phase (es : List Event) : (s.withSchedule es).phase = s.phase := rfl
@[simp] theorem State.withSchedule_schedule (es : List Event) : (s.withSchedule es).schedule = es := rfl
@[simp] theorem State.withSchedule_client (es : List Event) (c : Nat) : (s.withSchedule es).client c = s.client c := rfl
@[simp] theorem State.withSchedule_replyAt (es : List Event) (p : Port) :
    (s.withSchedule es).replyAt p = s.replyAt p := by cases p <;> rfl

/-! ### withClient -/

@[simp] theorem State.withClient_cfg (c : Nat) (x : Client) :
    (s.withClient c x).cfg = s.cfg := rfl
@[simp] theorem State.withClient_bank (c : Nat) (x : Client) :
    (s.withClient c x).bank = s.bank := rfl
@[simp] theorem State.withClient_k (c : Nat) (x : Client) :
    (s.withClient c x).k = s.k := rfl
@[simp] theorem State.withClient_bus (c : Nat) (x : Client) :
    (s.withClient c x).bus = s.bus := rfl
@[simp] theorem State.withClient_wReply (c : Nat) (x : Client) :
    (s.withClient c x).wReply = s.wReply := rfl
@[simp] theorem State.withClient_readers (c : Nat) (x : Client) :
    (s.withClient c x).readers = s.readers := rfl
@[simp] theorem State.withClient_clients (c : Nat) (x : Client) :
    (s.withClient c x).clients = Sparse.write Client.initial s.clients c x := rfl
@[simp] theorem State.withClient_loop (c : Nat) (x : Client) :
    (s.withClient c x).loop = s.loop := rfl
@[simp] theorem State.withClient_stop (c : Nat) (x : Client) :
    (s.withClient c x).stop = s.stop := rfl
@[simp] theorem State.withClient_startTime (c : Nat) (x : Client) :
    (s.withClient c x).startTime = s.startTime := rfl
@[simp] theorem State.withClient_now (c : Nat) (x : Client) :
    (s.withClient c x).now = s.now := rfl
@[simp] theorem State.withClient_phase (c : Nat) (x : Client) :
    (s.withClient c x).phase = s.phase := rfl
@[simp] theorem State.withClient_schedule (c : Nat) (x : Client) :
    (s.withClient c x).schedule = s.schedule := rfl

/-! ### withReply -/

@[simp] theorem State.withReply_cfg (p : Port) (r : Reply) :
    (s.withReply p r).cfg = s.cfg := by cases p <;> rfl
@[simp] theorem State.withReply_bank (p : Port) (r : Reply) :
    (s.withReply p r).bank = s.bank := by cases p <;> rfl
@[simp] theorem State.withReply_k (p : Port) (r : Reply) :
    (s.withReply p r).k = s.k := by cases p <;> rfl
@[simp] theorem State.withReply_bus (p : Port) (r : Reply) :
    (s.withReply p r).bus = s.bus := by cases p <;> rfl
@[simp] theorem State.withReply_loop (p : Port) (r : Reply) :
    (s.withReply p r).loop = s.loop := by cases p <;> rfl
@[simp] theorem State.withReply_stop (p : Port) (r : Reply) :
    (s.withReply p r).stop = s.stop := by cases p <;> rfl
@[simp] theorem State.withReply_startTime (p : Port) (r : Reply) :
    (s.withReply p r).startTime = s.startTime := by cases p <;> rfl
@[simp] theorem State.withReply_now (p : Port) (r : Reply) :
    (s.withReply p r).now = s.now := by cases p <;> rfl
@[simp] theorem State.withReply_phase (p : Port) (r : Reply) :
    (s.withReply p r).phase = s.phase := by cases p <;> rfl
@[simp] theorem State.withReply_schedule (p : Port) (r : Reply) :
    (s.withReply p r).schedule = s.schedule := by cases p <;> rfl

end Sys2Proof.Machine
end

