-- ==== Sys2Proof/Laws/Sparse.lean ====
section
/-! SUPPORT. Read after write, and the canonical form, for the sparse maps: BANK, the reader ports
and the clients. -/

namespace Sys2Proof.Machine

variable {α : Type}

@[simp] theorem Sparse.read_nil (d : α) (a : Nat) : Sparse.read d [] a = d := rfl

theorem Sparse.read_cons (d : α) (key : Nat) (v : α) (m : Sparse α) (a : Nat) :
    Sparse.read d ((key, v) :: m) a = if a = key then v else Sparse.read d m a := rfl

theorem Sparse.read_insert (d : α) (m : Sparse α) (a b : Nat) (v : α) :
    Sparse.read d (Sparse.insert m a v) b = if b = a then v else Sparse.read d m b := by
  induction m with
  | nil => rfl
  | cons e m ih =>
    obtain ⟨key, w⟩ := e
    unfold Sparse.insert
    by_cases h1 : a < key
    · rw [if_pos h1, Sparse.read_cons]
    · rw [if_neg h1]
      by_cases h2 : a = key
      · subst h2
        rw [if_pos rfl, Sparse.read_cons, Sparse.read_cons]
        by_cases hb : b = a <;> simp [hb]
      · rw [if_neg h2, Sparse.read_cons, Sparse.read_cons, ih]
        by_cases hb : b = a
        · subst hb
          simp [h2]
        · simp [hb]

theorem Sparse.mem_insert {m : Sparse α} {a : Nat} {v : α} {e : Nat × α}
    (h : e ∈ Sparse.insert m a v) : e = (a, v) ∨ e ∈ m := by
  induction m with
  | nil => simpa [Sparse.insert] using h
  | cons x m ih =>
    obtain ⟨key, w⟩ := x
    unfold Sparse.insert at h
    split_ifs at h
    · simpa using h
    · rcases List.mem_cons.1 h with h | h
      · exact .inl h
      · exact .inr (List.mem_cons_of_mem _ h)
    · rcases List.mem_cons.1 h with h | h
      · exact .inr (h ▸ List.mem_cons_self)
      · exact (ih h).imp id (List.mem_cons_of_mem _)

theorem Sparse.insert_rising {m : Sparse α} (a : Nat) (v : α)
    (h : m.Pairwise (fun x y => x.1 < y.1)) :
    (Sparse.insert m a v).Pairwise (fun x y => x.1 < y.1) := by
  induction m with
  | nil => simp [Sparse.insert]
  | cons x m ih =>
    obtain ⟨key, w⟩ := x
    obtain ⟨hx, hm⟩ := List.pairwise_cons.1 h
    unfold Sparse.insert
    split_ifs with h1 h2
    · refine List.pairwise_cons.2 ⟨fun e he => ?_, h⟩
      rcases List.mem_cons.1 he with rfl | he
      · exact h1
      · exact lt_trans h1 (hx e he)
    · subst h2
      exact List.pairwise_cons.2 ⟨hx, hm⟩
    · refine List.pairwise_cons.2 ⟨fun e he => ?_, ih hm⟩
      rcases Sparse.mem_insert he with rfl | he
      · show key < a
        omega
      · exact hx e he

theorem Sparse.read_filter (d : α) (m : Sparse α) (a b : Nat) :
    Sparse.read d (m.filter (fun e => e.1 != a)) b = if b = a then d else Sparse.read d m b := by
  induction m with
  | nil => simp
  | cons e m ih =>
    obtain ⟨key, w⟩ := e
    by_cases hk : key = a
    · subst hk
      by_cases hb : b = key <;> simp_all [Sparse.read_cons]
    · by_cases hb : b = key
      · subst hb
        simp [Sparse.read_cons, hk]
      · simp_all [Sparse.read_cons]

variable [DecidableEq α]

/-- What reading after a write gives, for every map whatever. -/
theorem Sparse.read_write (d : α) (m : Sparse α) (a b : Nat) (v : α) :
    Sparse.read d (Sparse.write d m a v) b = if b = a then v else Sparse.read d m b := by
  unfold Sparse.write
  by_cases h : v = d
  · rw [if_pos h, Sparse.read_filter, h]
  · rw [if_neg h, Sparse.read_insert]

@[simp] theorem Sparse.read_write_same (d : α) (m : Sparse α) (a : Nat) (v : α) :
    Sparse.read d (Sparse.write d m a v) a = v := by
  simp [Sparse.read_write]

theorem Sparse.read_write_ne (d : α) (m : Sparse α) {a b : Nat} (v : α) (h : b ≠ a) :
    Sparse.read d (Sparse.write d m a v) b = Sparse.read d m b := by
  simp [Sparse.read_write, h]

theorem Sparse.mem_write {d : α} {m : Sparse α} {a : Nat} {v : α} {e : Nat × α}
    (h : e ∈ Sparse.write d m a v) : e = (a, v) ∨ e ∈ m := by
  unfold Sparse.write at h
  split_ifs at h
  · exact .inr (List.mem_of_mem_filter h)
  · exact Sparse.mem_insert h

/-- A write keeps the canonical form. -/
theorem Sparse.write_wf {d : α} {m : Sparse α} (a : Nat) (v : α) (h : Sparse.wf d m) :
    Sparse.wf d (Sparse.write d m a v) := by
  refine ⟨?_, fun e he => ?_⟩
  · unfold Sparse.write
    split_ifs
    · exact h.1.filter _
    · exact Sparse.insert_rising a v h.1
  · by_cases hv : v = d
    · have : e ∈ m := by
        unfold Sparse.write at he
        rw [if_pos hv] at he
        exact List.mem_of_mem_filter he
      exact h.2 e this
    · rcases Sparse.mem_write he with rfl | he
      · exact hv
      · exact h.2 e he

/-- Two canonical maps that read alike everywhere are the same data. -/
theorem Sparse.ext_of_wf {d : α} {m n : Sparse α} (hm : Sparse.wf d m) (hn : Sparse.wf d n)
    (h : ∀ a, Sparse.read d m a = Sparse.read d n a) : m = n := by
  have low : ∀ {l : Sparse α} {a : Nat}, (∀ e ∈ l, a < e.1) → Sparse.read d l a = d := by
    intro l a hl
    induction l with
    | nil => rfl
    | cons e l ih =>
      obtain ⟨key, w⟩ := e
      have hk : a < key := hl _ List.mem_cons_self
      rw [Sparse.read_cons, if_neg (by omega)]
      exact ih fun e he => hl e (List.mem_cons_of_mem _ he)
  induction m generalizing n with
  | nil =>
    cases n with
    | nil => rfl
    | cons e n =>
      obtain ⟨key, w⟩ := e
      have := h key
      simp [Sparse.read_cons] at this
      exact absurd this.symm (hn.2 _ List.mem_cons_self)
  | cons e m ih =>
    obtain ⟨key, w⟩ := e
    obtain ⟨hmx, hmm⟩ := List.pairwise_cons.1 hm.1
    have hw : w ≠ d := hm.2 _ List.mem_cons_self
    cases n with
    | nil =>
      have := h key
      simp [Sparse.read_cons] at this
      exact absurd this hw
    | cons f n =>
      obtain ⟨key', w'⟩ := f
      obtain ⟨hnx, hnn⟩ := List.pairwise_cons.1 hn.1
      have hw' : w' ≠ d := hn.2 _ List.mem_cons_self
      rcases lt_trichotomy key key' with hlt | heq | hgt
      · have := h key
        rw [Sparse.read_cons, if_pos rfl, low (l := (key', w') :: n) (by
          intro e he
          rcases List.mem_cons.1 he with rfl | he
          · exact hlt
          · exact lt_trans hlt (hnx e he))] at this
        exact absurd this hw
      · subst heq
        have hww : w = w' := by simpa [Sparse.read_cons] using h key
        subst hww
        congr 1
        refine ih ⟨hmm, fun e he => hm.2 e (List.mem_cons_of_mem _ he)⟩
          ⟨hnn, fun e he => hn.2 e (List.mem_cons_of_mem _ he)⟩ fun a => ?_
        by_cases ha : a = key
        · subst ha
          rw [low hmx, low hnx]
        · simpa [Sparse.read_cons, ha] using h a
      · have := h key'
        rw [Sparse.read_cons, if_neg (by omega), low (by
          intro e he
          exact lt_trans hgt (hmx e he)), Sparse.read_cons, if_pos rfl] at this
        exact absurd this.symm hw'

/-! ### BANK -/

@[simp] theorem Memory.read_write_same (m : Memory) (a : Nat) (v : Word) :
    (m.write a v).read a = v := Sparse.read_write_same _ _ _ _

theorem Memory.read_write (m : Memory) (a b : Nat) (v : Word) :
    (m.write a v).read b = if b = a then v else m.read b := Sparse.read_write _ _ _ _ _

theorem Memory.write_wf {m : Memory} (a : Nat) (v : Word) (h : m.wf) : (m.write a v).wf :=
  Sparse.write_wf a v h

@[simp] theorem Memory.read_empty (a : Nat) : Memory.read [] a = 0#16 := rfl

/-- What a batch leaves in every register: its own words inside its span, all else as before. -/
theorem memWrite_read (m : Memory) (start : Nat) (ws : List Word) (a : Nat) :
    (memWrite m start ws).read a =
      if start ≤ a ∧ a < start + ws.length then ws.getD (a - start) 0#16 else m.read a := by
  induction ws generalizing m start with
  | nil =>
    rw [memWrite, if_neg (by simp only [List.length_nil]; omega)]
  | cons w ws ih =>
    rw [memWrite, ih, Memory.read_write]
    by_cases h1 : a = start
    · subst h1
      simp
    · by_cases h2 : start + 1 ≤ a ∧ a < start + 1 + ws.length
      · have h3 : start ≤ a ∧ a < start + (w :: ws).length := by
          simp only [List.length_cons]
          omega
        rw [if_pos h2, if_pos h3]
        have : a - start = (a - (start + 1)) + 1 := by omega
        rw [this, List.getD_cons_succ]
      · have h3 : ¬ (start ≤ a ∧ a < start + (w :: ws).length) := by
          simp only [List.length_cons]
          omega
        rw [if_neg h2, if_neg h3, if_neg h1]

theorem memWrite_read_outside (m : Memory) (start : Nat) (ws : List Word) {a : Nat}
    (h : a < start ∨ start + ws.length ≤ a) : (memWrite m start ws).read a = m.read a := by
  rw [memWrite_read, if_neg (by omega)]

theorem memWrite_wf {m : Memory} (start : Nat) (ws : List Word) (h : m.wf) :
    (memWrite m start ws).wf := by
  induction ws generalizing m start with
  | nil => exact h
  | cons w ws ih => exact ih _ (Memory.write_wf _ _ h)

theorem memWrite_below {m : Memory} {start n : Nat} {ws : List Word} (h : ∀ e ∈ m, e.1 < n)
    (hs : start + ws.length ≤ n) : ∀ e ∈ memWrite m start ws, e.1 < n := by
  induction ws generalizing m start with
  | nil => exact h
  | cons w ws ih =>
    simp only [List.length_cons] at hs
    refine ih (fun e he => ?_) (by omega)
    rcases Sparse.mem_write he with rfl | he
    · show start < n
      omega
    · exact h e he

@[simp] theorem memRead_length (m : Memory) (start count : Nat) :
    (memRead m start count).length = count := by simp [memRead]

theorem memRead_getD (m : Memory) (start : Nat) {count j : Nat} (h : j < count) :
    (memRead m start count).getD j 0#16 = m.read (start + j) := by
  simp [memRead, List.getD, List.getElem?_map, List.getElem?_range h]

/-- A read of exactly the batch just written returns the batch. -/
theorem memRead_memWrite (m : Memory) (start : Nat) (ws : List Word) :
    memRead (memWrite m start ws) start ws.length = ws := by
  refine List.ext_getElem (by simp) fun j h1 h2 => ?_
  simp [memRead, memWrite_read, h2, List.getD]

theorem memRead_congr {m n : Memory} {start count : Nat}
    (h : ∀ a, start ≤ a → a < start + count → m.read a = n.read a) :
    memRead m start count = memRead n start count := by
  refine List.map_congr_left fun j hj => ?_
  have := List.mem_range.1 hj
  exact h _ (by omega) (by omega)

end Sys2Proof.Machine
end

