-- ==== Sys2Proof/Laws/Ports.lean ====
section
/-! SUPPORT. What a reply on one port does to every port and client, and what the named ways for an
operation to end can do. -/

namespace Sys2Proof.Machine

variable (s : State)

/-! ### Clients -/

theorem State.withClient_client (c d : Nat) (x : Client) :
    (s.withClient c x).client d = if d = c then x else s.client d :=
  Sparse.read_write _ _ _ _ _

@[simp] theorem State.withClient_client_same (c : Nat) (x : Client) :
    (s.withClient c x).client c = x := by simp [State.withClient_client]

theorem State.withClient_replyAt_client (c d : Nat) (x : Client) :
    (s.withClient c x).replyAt (.client d) = if d = c then x.reply else s.replyAt (.client d) := by
  simp only [State.replyAt, State.withClient_client]
  split_ifs <;> rfl

@[simp] theorem State.withClient_replyAt_writer (c : Nat) (x : Client) :
    (s.withClient c x).replyAt .writer = s.replyAt .writer := rfl

@[simp] theorem State.withClient_replyAt_reader (c j : Nat) (x : Client) :
    (s.withClient c x).replyAt (.reader j) = s.replyAt (.reader j) := rfl

/-! ### Replies -/

/-- A reply shows on its own port and on no other. -/
theorem State.withReply_replyAt (p q : Port) (r : Reply) :
    (s.withReply p r).replyAt q = if q = p then r else s.replyAt q := by
  cases p with
  | writer => cases q <;> rfl
  | reader j =>
    cases q with
    | writer => rfl
    | reader j' =>
      simp only [State.replyAt, State.withReply, Sparse.read_write, Port.reader.injEq]
    | client c => rfl
  | client c =>
    cases q with
    | writer => rfl
    | reader j => rfl
    | client c' =>
      simp only [State.withReply, State.withClient_replyAt_client, Port.client.injEq]

@[simp] theorem State.withReply_replyAt_same (p : Port) (r : Reply) :
    (s.withReply p r).replyAt p = r := by simp [State.withReply_replyAt]

@[simp] theorem State.withReply_writer_wReply (r : Reply) :
    (s.withReply .writer r).wReply = r := rfl

@[simp] theorem State.withReply_client_order (p : Port) (r : Reply) (c : Nat) :
    ((s.withReply p r).client c).order = (s.client c).order := by
  cases p with
  | writer => rfl
  | reader j => rfl
  | client d =>
    simp only [State.withReply, State.withClient_client]
    split_ifs with h
    · rw [h]
    · rfl

@[simp] theorem State.withReply_client_request (p : Port) (r : Reply) (c : Nat) :
    ((s.withReply p r).client c).request = (s.client c).request := by
  cases p with
  | writer => rfl
  | reader j => rfl
  | client d =>
    simp only [State.withReply, State.withClient_client]
    split_ifs with h
    · rw [h]
    · rfl

/-- A reply touches nothing but what its port shows, BANK and K being whatever they are. -/
theorem State.restSame_withReply (m : Memory) (k : BitVec 6) (p : Port) (r : Reply) :
    s.restSame p (((s.withBank m).withK k).withReply p r) := by
  refine ⟨by simp, by simp, by simp, by simp, by simp, by simp, by simp, by simp, ?_, ?_⟩
  · intro q hq
    simp [State.withReply_replyAt, hq]
  · intro c
    simp

theorem State.onlyReply_withReply (r : Reply) : s.onlyReply (s.withReply s.bus.port r) := by
  refine ⟨by simp, fun a => by simp, ?_⟩
  exact State.restSame_withReply s s.bank s.k s.bus.port r

/-! ### How an operation ends -/

theorem finish_eq (r : Result) : finish r s = .next (s.withReply s.bus.port (.ok r)) := rfl

theorem raise_eq (e : Error) : raise e s = .next (s.withReply s.bus.port (.failed e)) := rfl

/-- `raise` ends the operation in the error and without effect (R113). -/
theorem raise_endsIn (e : Error) : endsIn (raise e s) s e :=
  ⟨_, rfl, by simp, s.onlyReply_withReply _⟩

/-- `result(...)` returns on the issuing port and has no other effect. -/
theorem finish_returns (r : Result) : returns (finish r s) s r :=
  ⟨_, rfl, by simp, s.onlyReply_withReply _⟩

variable {s}

theorem onWriterPort_writer {k : Host.Outcome State Fault Refusal} (h : s.bus.port = .writer) :
    onWriterPort s k = k := by
  simp [onWriterPort, h]

theorem onWriterPort_other {k : Host.Outcome State Fault Refusal} (h : s.bus.port ≠ .writer) :
    onWriterPort s k = raise (.illegalCommand s.bus.cmd) s := by
  unfold onWriterPort
  split
  · contradiction
  · rfl
  · rfl

/-- A port of the block itself, not a client's own instance. -/
theorem onBankPort_block {k : Host.Outcome State Fault Refusal}
    (h : ∀ c, s.bus.port ≠ .client c) : onBankPort s k = k := by
  unfold onBankPort
  split
  · rfl
  · rfl
  · rename_i c hc
    exact absurd hc (h c)

theorem onBankPort_client {k : Host.Outcome State Fault Refusal} {c : Nat}
    (h : s.bus.port = .client c) : onBankPort s k = raise (.illegalCommand s.bus.cmd) s := by
  simp [onBankPort, h]

theorem inSpan_le {start count : Nat} {k : Host.Outcome State Fault Refusal}
    (h : start + count ≤ s.cfg.n) : inSpan start count s k = k := if_pos h

theorem inSpan_gt {start count : Nat} {k : Host.Outcome State Fault Refusal}
    (h : s.cfg.n < start + count) : inSpan start count s k = raise (.outOfRange start count) s :=
  if_neg (by omega)

/-! ### Word operands -/

theorem hasLength_iff (n : Nat) (ws : List Word) : hasLength n ws = true ↔ ws.length = n := by
  induction n generalizing ws with
  | zero => cases ws <;> simp [hasLength]
  | succ n ih => cases ws <;> simp [hasLength, ih]

theorem withWords_length {n : Nat} {k : List Word → Host.Outcome State Fault Refusal}
    (h : s.bus.win.length = n) : withWords n s k = k s.bus.win :=
  if_pos ((hasLength_iff _ _).2 h)

theorem withWords_ne {n : Nat} {k : List Word → Host.Outcome State Fault Refusal}
    (h : s.bus.win.length ≠ n) : withWords n s k = .fault (.wordCount n s.bus.win.length) :=
  if_neg fun h' => h ((hasLength_iff _ _).1 h')

end Sys2Proof.Machine
end

