-- ==== Sys2Proof/Laws/Exec.lean ====
section
/-! SUPPORT. Once for every operation: all that it can do when it answers a next state. -/

namespace Sys2Proof.Machine

variable {s t : State}

/-! ### Each operation whose ending depends on its operands, one equation per case -/

theorem exec_decf32_pair {o : Order} {reg0 reg1 : Word} (h : s.bus.win = [reg0, reg1]) :
    exec (.decf32 o) s = finish (.value ((decF32 reg0 reg1 o).setWidth 64)) s := by
  simp only [exec, execDecf32]
  rw [h]

theorem exec_decf64_quad {o : Order} {r0 r1 r2 r3 : Word} (h : s.bus.win = [r0, r1, r2, r3]) :
    exec (.decf64 o) s = finish (.value (decF64 r0 r1 r2 r3 o)) s := by
  simp only [exec, execDecf64]
  rw [h]

theorem exec_decu16_single {reg : Word} (h : s.bus.win = [reg]) :
    exec .decu16 s = finish (.value ((decU16 reg).setWidth 64)) s := by
  simp only [exec, execDecu16]
  rw [h]

theorem exec_unpk_short {o : Order} {count : Nat} (h : count < 38) :
    exec (.unpk o count) s = raise (.insufficientData count) s :=
  if_pos h

theorem exec_unpk_full {o : Order} {count : Nat} (h : 38 ≤ count) :
    exec (.unpk o count) s = withWords count s fun ws => finish (.fields (unpack o ws)) s :=
  if_neg (Nat.not_lt.2 h)

theorem exec_wrb_inside {start count : Nat} (hp : s.bus.port = .writer)
    (hn : start + count ≤ s.cfg.n) :
    exec (.wrb start count) s =
      withWords count s fun ws => finish .nothing (s.withBank (memWrite s.bank start ws)) := by
  simp only [exec, execWrb]
  rw [onWriterPort_writer hp, inSpan_le hn]

theorem exec_wrb_outside {start count : Nat} (hp : s.bus.port = .writer)
    (hn : s.cfg.n < start + count) :
    exec (.wrb start count) s = raise (.outOfRange start count) s := by
  simp only [exec, execWrb]
  rw [onWriterPort_writer hp, inSpan_gt hn]

theorem exec_wrb_other {start count : Nat} (hp : s.bus.port ≠ .writer) :
    exec (.wrb start count) s = raise (.illegalCommand s.bus.cmd) s := by
  simp only [exec, execWrb]
  rw [onWriterPort_other hp]

theorem exec_rdr_inside {start count : Nat} (hp : ∀ c, s.bus.port ≠ .client c)
    (hn : start + count ≤ s.cfg.n) :
    exec (.rdr start count) s = finish (.words (memRead s.bank start count)) s := by
  simp only [exec, execRdr]
  rw [onBankPort_block hp, inSpan_le hn]

theorem exec_rdr_outside {start count : Nat} (hp : ∀ c, s.bus.port ≠ .client c)
    (hn : s.cfg.n < start + count) :
    exec (.rdr start count) s = raise (.outOfRange start count) s := by
  simp only [exec, execRdr]
  rw [onBankPort_block hp, inSpan_gt hn]

theorem exec_rdr_client {start count c : Nat} (hp : s.bus.port = .client c) :
    exec (.rdr start count) s = raise (.illegalCommand s.bus.cmd) s := by
  simp only [exec, execRdr]
  rw [onBankPort_client hp]

theorem exec_ctrpub_inside (hp : s.bus.port = .writer) (hn : 10 ≤ s.cfg.n) :
    exec .ctrpub s =
      finish .nothing
        ((s.withBank (memWrite s.bank 0 ((counters s.k.toNat).flatMap encU16))).withK
          (nextTickIndex s.k)) := by
  simp only [exec, execCtrpub]
  rw [onWriterPort_writer hp, inSpan_le (by simpa [ctrAddr, counterCount] using hn)]
  rfl

theorem exec_ctrpub_outside (hp : s.bus.port = .writer) (hn : s.cfg.n < 10) :
    exec .ctrpub s = raise (.outOfRange 0 10) s := by
  simp only [exec, execCtrpub]
  rw [onWriterPort_writer hp, inSpan_gt (by simpa [ctrAddr, counterCount] using hn)]
  rfl

theorem exec_ctrpub_other (hp : s.bus.port ≠ .writer) :
    exec .ctrpub s = raise (.illegalCommand s.bus.cmd) s := by
  simp only [exec, execCtrpub]
  rw [onWriterPort_other hp]

/-- Each counter is its own ENCU16 word. -/
@[simp] theorem flatMap_encU16 (ws : List Word) : ws.flatMap encU16 = ws := by
  induction ws with
  | nil => rfl
  | cons w ws ih => simp [List.flatMap_cons, ih, encU16]

@[simp] theorem counters_length (k : Nat) : (counters k).length = 10 := by
  simp [counters, counterCount]

/-! ### All that an operation can do -/

/-- What the operation leaves in BANK and K: WRB writes its words inside the bank, CTRPUB the ten
counters and the next tick index, and nothing else writes either. -/
inductive Leaves (s : State) : Instr → Memory → BitVec 6 → Prop where
  | same (i : Instr) : Leaves s i s.bank s.k
  | batch (start : Nat) (hp : s.bus.port = .writer) (h : start + s.bus.win.length ≤ s.cfg.n) :
      Leaves s (.wrb start s.bus.win.length) (memWrite s.bank start s.bus.win) s.k
  | tickIndex (hp : s.bus.port = .writer) (h : counterCount ≤ s.cfg.n) :
      Leaves s .ctrpub (memWrite s.bank ctrAddr ((counters s.k.toNat).flatMap encU16))
        (nextTickIndex s.k)

theorem same_shape (i : Instr) (r : Reply) :
    ∃ m k r', Leaves s i m k ∧
      s.withReply s.bus.port r = ((s.withBank m).withK k).withReply s.bus.port r' :=
  ⟨s.bank, s.k, r, .same i, rfl⟩

/-- The one thing an operation can do: leave BANK and K as `Leaves` says, and reply on the issuing
port. -/
theorem exec_next_cases {i : Instr} (h : exec i s = .next t) :
    ∃ m k r, Leaves s i m k ∧ t = ((s.withBank m).withK k).withReply s.bus.port r := by
  have fin : ∀ {r : Result}, finish r s = .next t →
      ∃ m k r, Leaves s i m k ∧ t = ((s.withBank m).withK k).withReply s.bus.port r := by
    intro r h
    obtain ⟨m, k, r', hl, e⟩ := same_shape (s := s) i (.ok r)
    exact ⟨m, k, r', hl, (Host.Outcome.next.inj h) ▸ e⟩
  have rai : ∀ {e : Error}, raise e s = .next t →
      ∃ m k r, Leaves s i m k ∧ t = ((s.withBank m).withK k).withReply s.bus.port r := by
    intro e h
    obtain ⟨m, k, r', hl, e'⟩ := same_shape (s := s) i (.failed e)
    exact ⟨m, k, r', hl, (Host.Outcome.next.inj h) ▸ e'⟩
  cases i with
  | encf32 o => exact fin h
  | decf32 o =>
    simp only [exec, execDecf32] at h
    split at h
    · exact fin h
    · cases h
  | encf64 o => exact fin h
  | decf64 o =>
    simp only [exec, execDecf64] at h
    split at h
    · exact fin h
    · cases h
  | encu16 => exact fin h
  | decu16 =>
    simp only [exec, execDecu16] at h
    split at h
    · exact fin h
    · cases h
  | unpk o count =>
    simp only [exec, execUnpk] at h
    split at h
    · exact rai h
    · by_cases hw : s.bus.win.length = count
      · rw [withWords_length hw] at h
        exact fin h
      · rw [withWords_ne hw] at h
        cases h
  | wrb start count =>
    simp only [exec, execWrb] at h
    by_cases hp : s.bus.port = .writer
    · rw [onWriterPort_writer hp] at h
      by_cases hn : start + count ≤ s.cfg.n
      · rw [inSpan_le hn] at h
        by_cases hw : s.bus.win.length = count
        · rw [withWords_length hw] at h
          subst hw
          exact ⟨_, _, _, .batch start hp hn, (Host.Outcome.next.inj h).symm⟩
        · rw [withWords_ne hw] at h
          cases h
      · rw [inSpan_gt (by omega)] at h
        exact rai h
    · rw [onWriterPort_other hp] at h
      exact rai h
  | rdr start count =>
    simp only [exec, execRdr] at h
    unfold onBankPort inSpan at h
    split at h
    · split at h
      · exact fin h
      · exact rai h
    · split at h
      · exact fin h
      · exact rai h
    · exact rai h
  | ctrpub =>
    simp only [exec, execCtrpub] at h
    by_cases hp : s.bus.port = .writer
    · rw [onWriterPort_writer hp] at h
      by_cases hn : ctrAddr + counterCount ≤ s.cfg.n
      · rw [inSpan_le hn] at h
        exact ⟨_, _, _, .tickIndex hp (by simpa [ctrAddr] using hn), (Host.Outcome.next.inj h).symm⟩
      · rw [inSpan_gt (by omega)] at h
        exact rai h
    · rw [onWriterPort_other hp] at h
      exact rai h

/-- Off the writer port, an operation changes neither BANK nor K. -/
theorem Leaves.off_writer {i : Instr} {m : Memory} {k : BitVec 6} (h : Leaves s i m k)
    (hp : s.bus.port ≠ .writer) : m = s.bank ∧ k = s.k := by
  cases h with
  | same => exact ⟨rfl, rfl⟩
  | batch _ h _ => exact absurd h hp
  | tickIndex h _ => exact absurd h hp

/-- A presented command, legal or not, can do no more than the operation it spells. -/
theorem issue_next_cases {q : Issue} (h : issue q s = .next t) :
    (∃ i m k r, decode q.cmd = some i ∧ Leaves (s.withBus q) i m k ∧
        t = (((s.withBus q).withBank m).withK k).withReply q.port r) ∨
      (decode q.cmd = none ∧ t = (s.withBus q).withReply q.port (.failed (.illegalCommand q.cmd))) := by
  unfold issue at h
  split at h
  · rename_i hd
    exact .inr ⟨hd, (Host.Outcome.next.inj h).symm⟩
  · rename_i i hd
    obtain ⟨m, k, r, hl, e⟩ := exec_next_cases h
    exact .inl ⟨i, m, k, r, hd, hl, e⟩

end Sys2Proof.Machine
end

