-- ==== Sys2Proof/Laws/PerInstr.lean ====
section
/-! SUPPORT. Per instruction: its packet selects its row of the match/mask table (R58, R65). -/

namespace Sys2Proof.Laws.EncodeSelectsRow

open Sys2Proof

/-- Every row of the table with the instruction's mnemonic is selected by the instruction's packet. -/
def Statement (i : Instr) : Prop :=
  ∀ r ∈ opTable, r.mnemonic = i.mnemonic → r.selects (encode i) = true

theorem mask_assemble (op op' : BitVec 4) (ord ord' : BitVec 1) (a a' c c' : BitVec 16) :
    assemble op ord a c &&& (op' ++ 7#3 ++ ord' ++ a' ++ c' : Packet) =
      assemble (op &&& op') (ord &&& ord') (a &&& a') (c &&& c') := by
  unfold assemble
  rw [BitVec.and_append, BitVec.and_append, BitVec.and_append, BitVec.and_append]
  rfl

theorem encf32 (o : Order) : Statement (.encf32 o) := by cases o <;> unfold Statement <;> decide
theorem decf32 (o : Order) : Statement (.decf32 o) := by cases o <;> unfold Statement <;> decide
theorem encf64 (o : Order) : Statement (.encf64 o) := by cases o <;> unfold Statement <;> decide
theorem decf64 (o : Order) : Statement (.decf64 o) := by cases o <;> unfold Statement <;> decide
theorem encu16 : Statement .encu16 := by unfold Statement; decide
theorem decu16 : Statement .decu16 := by unfold Statement; decide

theorem unpk (o : Order) (count : Nat) : Statement (.unpk o count) := by
  intro r hr hm
  simp only [opTable, List.mem_cons, List.not_mem_nil, or_false] at hr
  rcases hr with rfl | rfl | rfl | rfl | rfl | rfl | rfl | rfl | rfl | rfl <;>
    simp [Instr.mnemonic] at hm
  have := mask_assemble 0x7#4 0xF#4 (bitOfOrder o) 0#1 0#16 0xFFFF#16 (BitVec.ofNat 16 count) 0#16
  simp only [OpRow.selects, encode]
  exact beq_iff_eq.2 (this.trans (by simp only [BitVec.and_zero]; rfl))

theorem wrb (start count : Nat) : Statement (.wrb start count) := by
  intro r hr hm
  simp only [opTable, List.mem_cons, List.not_mem_nil, or_false] at hr
  rcases hr with rfl | rfl | rfl | rfl | rfl | rfl | rfl | rfl | rfl | rfl <;>
    simp [Instr.mnemonic] at hm
  have := mask_assemble 0x8#4 0xF#4 0#1 1#1 (BitVec.ofNat 16 start) 0#16 (BitVec.ofNat 16 count) 0#16
  simp only [OpRow.selects, encode]
  exact beq_iff_eq.2 (this.trans (by simp only [BitVec.and_zero]; rfl))

theorem rdr (start count : Nat) : Statement (.rdr start count) := by
  intro r hr hm
  simp only [opTable, List.mem_cons, List.not_mem_nil, or_false] at hr
  rcases hr with rfl | rfl | rfl | rfl | rfl | rfl | rfl | rfl | rfl | rfl <;>
    simp [Instr.mnemonic] at hm
  have := mask_assemble 0x9#4 0xF#4 0#1 1#1 (BitVec.ofNat 16 start) 0#16 (BitVec.ofNat 16 count) 0#16
  simp only [OpRow.selects, encode]
  exact beq_iff_eq.2 (this.trans (by simp only [BitVec.and_zero]; rfl))

theorem ctrpub : Statement .ctrpub := by unfold Statement; decide

end Sys2Proof.Laws.EncodeSelectsRow
end

