-- ==== Sys2Proof/Laws/Step.lean ====
section
/-! SUPPORT. Once for a presented command and once for a step: all that they can do. -/

namespace Sys2Proof.Machine

/-! ### A presented command -/

/-- What a presented command leaves in BANK and K, beside its reply `r`: as they were, or one batch
inside the bank, or the ten counters and the next tick index. -/
inductive Wrote (q : Issue) (s : State) : Memory → BitVec 6 → Reply → Prop where
  | nothing (r : Reply) : Wrote q s s.bank s.k r
  | batch (start : Nat) (hp : q.port = .writer)
      (hd : decode q.cmd = some (.wrb start q.win.length)) (hn : start + q.win.length ≤ s.cfg.n) :
      Wrote q s (memWrite s.bank start q.win) s.k (.ok .nothing)
  | tickIndex (hp : q.port = .writer) (hd : decode q.cmd = some .ctrpub) (hn : 10 ≤ s.cfg.n) :
      Wrote q s (memWrite s.bank 0 (counters s.k.toNat)) (nextTickIndex s.k) (.ok .nothing)

/-- A presented command that answers a next state did one of three things to BANK and K, and replied
on its own port. -/
theorem issue_wrote {q : Issue} {s t : State} (h : issue q s = .next t) :
    ∃ m k r, r ≠ .idle ∧ Wrote q s m k r ∧
      t = (((s.withBus q).withBank m).withK k).withReply q.port r := by
  have same : ∀ r, r ≠ .idle → t = (s.withBus q).withReply q.port r →
      ∃ m k r, r ≠ .idle ∧ Wrote q s m k r ∧
        t = (((s.withBus q).withBank m).withK k).withReply q.port r :=
    fun r hr ht => ⟨s.bank, s.k, r, hr, .nothing r, ht⟩
  unfold issue at h
  split at h
  · cases h
    exact same _ (by simp) rfl
  · rename_i i hi
    cases i with
    | encf32 o =>
      cases h
      exact same _ (by simp) rfl
    | decf32 o =>
      simp only [exec, execDecf32] at h
      split at h
      · cases h
        exact same _ (by simp) rfl
      · cases h
    | encf64 o =>
      cases h
      exact same _ (by simp) rfl
    | decf64 o =>
      simp only [exec, execDecf64] at h
      split at h
      · cases h
        exact same _ (by simp) rfl
      · cases h
    | encu16 =>
      cases h
      exact same _ (by simp) rfl
    | decu16 =>
      simp only [exec, execDecu16] at h
      split at h
      · cases h
        exact same _ (by simp) rfl
      · cases h
    | unpk o count =>
      by_cases hc : count < 38
      · rw [exec_unpk_short hc] at h
        cases h
        exact same _ (by simp) rfl
      · rw [exec_unpk_full (by omega)] at h
        by_cases hl : q.win.length = count
        · rw [withWords_length (by simpa using hl)] at h
          cases h
          exact same _ (by simp) rfl
        · rw [withWords_ne (by simpa using hl)] at h
          cases h
    | wrb start count =>
      by_cases hp : q.port = .writer
      · by_cases hn : start + count ≤ s.cfg.n
        · rw [exec_wrb_inside (by simpa using hp) (by simpa using hn)] at h
          by_cases hl : q.win.length = count
          · rw [withWords_length (by simpa using hl)] at h
            subst hl
            cases h
            exact ⟨_, s.k, .ok .nothing, by simp, .batch start hp hi hn, rfl⟩
          · rw [withWords_ne (by simpa using hl)] at h
            cases h
        · rw [exec_wrb_outside (by simpa using hp) (by simp only [State.withBus_cfg]; omega)] at h
          cases h
          exact same _ (by simp) rfl
      · rw [exec_wrb_other (by simpa using hp)] at h
        cases h
        exact same _ (by simp) rfl
    | rdr start count =>
      by_cases hc : ∃ c, q.port = .client c
      · obtain ⟨c, hc⟩ := hc
        rw [exec_rdr_client (c := c) (by simpa using hc)] at h
        cases h
        exact same _ (by simp) rfl
      · by_cases hn : start + count ≤ s.cfg.n
        · rw [exec_rdr_inside (by simpa using hc) (by simpa using hn)] at h
          cases h
          exact same _ (by simp) rfl
        · rw [exec_rdr_outside (by simpa using hc) (by simp only [State.withBus_cfg]; omega)] at h
          cases h
          exact same _ (by simp) rfl
    | ctrpub =>
      by_cases hp : q.port = .writer
      · by_cases hn : 10 ≤ s.cfg.n
        · rw [exec_ctrpub_inside (by simpa using hp) (by simpa using hn)] at h
          cases h
          exact ⟨_, _, .ok .nothing, by simp, .tickIndex hp hi hn, by simp⟩
        · rw [exec_ctrpub_outside (by simpa using hp) (by simp only [State.withBus_cfg]; omega)] at h
          cases h
          exact same _ (by simp) rfl
      · rw [exec_ctrpub_other (by simpa using hp)] at h
        cases h
        exact same _ (by simp) rfl

/-- What no presented command touches. -/
theorem issue_rest {q : Issue} {s t : State} (h : issue q s = .next t) :
    t.cfg = s.cfg ∧ t.bus = q ∧ t.loop = s.loop ∧ t.stop = s.stop ∧ t.startTime = s.startTime ∧
      t.now = s.now ∧ t.phase = s.phase ∧ t.schedule = s.schedule := by
  obtain ⟨m, k, r, -, -, rfl⟩ := issue_wrote h
  simp

/-- A command that is not on the writer port puts its reply on its own port and does nothing else. -/
theorem issue_off_writer {q : Issue} {s t : State} (hp : q.port ≠ .writer)
    (h : issue q s = .next t) : ∃ r, t = (s.withBus q).withReply q.port r := by
  obtain ⟨m, k, r, -, hw, rfl⟩ := issue_wrote h
  cases hw with
  | nothing => exact ⟨r, rfl⟩
  | batch _ hw _ _ => exact absurd hw hp
  | tickIndex hw _ _ => exact absurd hw hp

/-! ### After a step of a tick -/

variable (elapsed : Seconds) (rest : List TickStep) (s : State)

/-- W's next phase and LOOP are all that follow from the status of a step of a tick. -/
theorem afterTickStep_shape :
    ∃ l p, afterTickStep elapsed rest s = (s.withLoop l).withPhase p := by
  unfold afterTickStep
  split
  · split
    · exact ⟨s.loop, _, rfl⟩
    · exact ⟨s.loop, _, rfl⟩
  · exact ⟨_, _, rfl⟩

@[simp] theorem afterTickStep_bank : (afterTickStep elapsed rest s).bank = s.bank := by
  obtain ⟨l, p, h⟩ := afterTickStep_shape elapsed rest s
  simp [h]

@[simp] theorem afterTickStep_k : (afterTickStep elapsed rest s).k = s.k := by
  obtain ⟨l, p, h⟩ := afterTickStep_shape elapsed rest s
  simp [h]

@[simp] theorem afterTickStep_cfg : (afterTickStep elapsed rest s).cfg = s.cfg := by
  obtain ⟨l, p, h⟩ := afterTickStep_shape elapsed rest s
  simp [h]

@[simp] theorem afterTickStep_bus : (afterTickStep elapsed rest s).bus = s.bus := by
  obtain ⟨l, p, h⟩ := afterTickStep_shape elapsed rest s
  simp [h]

@[simp] theorem afterTickStep_schedule : (afterTickStep elapsed rest s).schedule = s.schedule := by
  obtain ⟨l, p, h⟩ := afterTickStep_shape elapsed rest s
  simp [h]

@[simp] theorem afterTickStep_wReply : (afterTickStep elapsed rest s).wReply = s.wReply := by
  obtain ⟨l, p, h⟩ := afterTickStep_shape elapsed rest s
  simp [h]

/-! ### A step -/

variable {s}

/-- Everything a step can be, with what it found in the state. -/
inductive StepCase (s : State) : State → Prop where
  | waits (hs : s.schedule = []) : StepCase s s
  | command (q : Issue) (es : List Event) (t : State) (hs : s.schedule = .command q :: es)
      (h : issue q (s.withSchedule es) = .next t) : StepCase s t
  | inactive (p : Patterns) (es : List Event) (hs : s.schedule = .writerTurn p :: es)
      (hp : s.phase = .exited ∨ ∃ w, s.phase = .sleeping w ∧ s.now.value < w.value) :
      StepCase s (s.withSchedule es)
  | starts (p : Patterns) (es : List Event) (hs : s.schedule = .writerTurn p :: es)
      (hp : s.phase = .starting) : StepCase s (startLoop (s.withSchedule es))
  | exits (p : Patterns) (es : List Event) (hs : s.schedule = .writerTurn p :: es)
      (hp : s.phase = .boundary) (h : s.stop = true) :
      StepCase s ((s.withSchedule es).withPhase .exited)
  | begins (p : Patterns) (es : List Event) (hs : s.schedule = .writerTurn p :: es)
      (hp : s.phase = .boundary) (h : s.stop = false) :
      StepCase s (beginTick p (s.withSchedule es))
  | wakes (p : Patterns) (es : List Event) (w : Seconds) (hs : s.schedule = .writerTurn p :: es)
      (hp : s.phase = .sleeping w) (h : w.value ≤ s.now.value) : StepCase s (wake (s.withSchedule es))
  | ends (p : Patterns) (es : List Event) (elapsed : Seconds) (words : List Word)
      (hs : s.schedule = .writerTurn p :: es) (hp : s.phase = .ticking elapsed [] words) :
      StepCase s (endTick (s.withSchedule es))
  | ticks (p : Patterns) (es : List Event) (elapsed : Seconds) (x : TickStep) (rest : List TickStep)
      (words : List Word) (u : State) (hs : s.schedule = .writerTurn p :: es)
      (hp : s.phase = .ticking elapsed (x :: rest) words)
      (h : issue (x.issue s.cfg.order words) (s.withSchedule es) = .next u) :
      StepCase s (afterTickStep elapsed rest u)
  | serves (j : Nat) (start count : Word) (es : List Event) (t : State)
      (hs : s.schedule = .serverRead j start count :: es)
      (h : serverRead j start count (s.withSchedule es) = .next t) : StepCase s t
  | busy (c j : Nat) (es : List Event) (hs : s.schedule = .clientRequest c j :: es) :
      StepCase s (s.withSchedule es)
  | requests (c j : Nat) (es : List Event) (u : State)
      (hs : s.schedule = .clientRequest c j :: es) (hr : (s.client c).request = none)
      (h : serverRead j 0#16 38#16 (s.withSchedule es) = .next u) :
      StepCase s (carryAnswer c j u)
  | unasked (c : Nat) (d : Delivery) (es : List Event) (hs : s.schedule = .clientDeliver c d :: es) :
      StepCase s (s.withSchedule es)
  | passesError (c cause : Nat) (es : List Event)
      (hs : s.schedule = .clientDeliver c (.error cause) :: es) :
      StepCase s
        ((answered c (s.withSchedule es)).withReply (.client c) (.failed (.transportError cause)))
  | delivers (c m : Nat) (es : List Event) (answer : Reply) (t : State)
      (hs : s.schedule = .clientDeliver c (.first m) :: es)
      (hr : (s.client c).request = some answer)
      (h : issue (unpackIssue c (s.client c).order (answer.wordsOf.take m))
        (answered c (s.withSchedule es)) = .next t) : StepCase s t
  | clock (x : Seconds) (es : List Event) (hs : s.schedule = .clock x :: es) :
      StepCase s (if s.now.before x then (s.withSchedule es).withNow x else s.withSchedule es)
  | stopSignal (on : Bool) (es : List Event) (hs : s.schedule = .stopSignal on :: es) :
      StepCase s ((s.withSchedule es).withStop on)

/-- Every step that answers a next state is one of them. -/
theorem step_cases {t : State} (h : step s = .next t) : StepCase s t := by
  unfold step at h
  split at h
  · rename_i hs
    cases h
    exact .waits hs
  · rename_i e es hs
    cases e with
    | command q => exact .command q es t hs h
    | writerTurn p =>
      simp only [runEvent, writerTurn, State.withSchedule_phase] at h
      split at h
      · rename_i hp
        cases h
        exact .starts p es hs hp
      · rename_i hp
        split at h
        · rename_i hstop
          cases h
          exact .exits p es hs hp hstop
        · rename_i hstop
          cases h
          exact .begins p es hs hp (by simpa using hstop)
      · rename_i elapsed todo words hp
        unfold tickTurn at h
        split at h
        · cases h
          exact .ends p es _ _ hs hp
        · split at h
          · rename_i hu
            cases h
            exact .ticks p es _ _ _ _ _ hs hp hu
          · cases h
          · cases h
      · rename_i w hp
        split at h
        · rename_i hw
          cases h
          exact .inactive p es hs (.inr ⟨w, hp, (Seconds.before_iff _ _).1 hw⟩)
        · rename_i hw
          cases h
          exact .wakes p es w hs hp ((Seconds.not_before_iff _ _).1 hw)
      · rename_i hp
        cases h
        exact .inactive p es hs (.inl hp)
    | serverRead j start count => exact .serves j start count es t hs h
    | clientRequest c j =>
      simp only [runEvent, clientRequest] at h
      split at h
      · cases h
        exact .busy c j es hs
      · rename_i hr
        split at h
        · rename_i u hu
          cases h
          exact .requests c j es u hs (by simpa using hr) hu
        · cases h
        · cases h
    | clientDeliver c d =>
      simp only [runEvent, clientDeliver] at h
      split at h
      · cases h
        exact .unasked c d es hs
      · rename_i answer hr
        cases d with
        | error cause =>
          cases h
          exact .passesError c cause es hs
        | first m => exact .delivers c m es answer t hs (by simpa using hr) h
    | clock x =>
      cases h
      exact .clock x es hs
    | stopSignal on =>
      cases h
      exact .stopSignal on es hs

/-! ### Runs -/

/-- A step first, then the rest of the run. -/
theorem run_succ {n : Nat} {t : State} (h : step s = .next t) : run (n + 1) s = run n t := by
  simp [run, h]

/-- A run in two parts. -/
theorem run_add {m n : Nat} {t : State} (h : run m s = .next t) : run (m + n) s = run n t := by
  induction m generalizing s with
  | zero =>
    cases h
    rw [Nat.zero_add]
  | succ m ih =>
    rw [Nat.succ_add]
    simp only [run] at h ⊢
    split at h
    · exact ih h
    · cases h
    · cases h

/-! ### The address map and the tick index -/

theorem isMapped_iff (a : Nat) :
    isMapped a = true ↔ a < 10 ∨ (20 ≤ a ∧ a < 24) ∨ (30 ≤ a ∧ a < 38) := by
  simp [isMapped, addressMap, MapEntry.covers, MapEntry.length, Kind.width, ctrAddr, counterCount,
    sineAddr, cosineAddr, rampAddr, triangleAddr]
  omega

theorem nextTickIndex_toNat (k : BitVec 6) : (nextTickIndex k).toNat = (k.toNat + 1) % 51 := by
  simp only [nextTickIndex, counterModulus, BitVec.toNat_ofNat]
  exact Nat.mod_eq_of_lt (by omega)

end Sys2Proof.Machine
end

