-- ==== Sys2Proof/Tests/Slice0.lean ====
section
/-! SUPPORT. Our own tests: expected values are those of spec/95_test_vectors.md (the vector is named)
or are written out from the packet of 30_encoding.md; and a witness for the hypotheses of every
obligation that has some. -/

namespace Sys2Proof.Tests

open Sys2Proof.Machine

/-! ### Small states -/

/-- Reset with a bank of `n` words holding `bank`, and K = `k`. -/
def block (n : Nat) (bank : Memory) (k : BitVec 6) : State :=
  { State.reset with cfg := { Cfg.default with n := n }, bank := bank, k := k }

/-- The default block after reset. -/
def fresh : State := block 100 [] 0#6

/-- The next state of a step in which the command is presented. -/
def after (s : State) (q : Issue) : Option State :=
  match step (s.withSchedule [.command q]) with
  | .next t => some t
  | .fault _ => none
  | .refused _ => none

/-- What the command returns on its port. -/
def reply (s : State) (q : Issue) : Option Reply := (after s q).map fun t => t.replyAt q.port

/-- The state with a command on its port, which `exec` finds there. -/
def holding (s : State) (port : Port) (vin : Bits64) (win : List Word) : State :=
  s.withBus { port := port, cmd := 0#40, vin := vin, win := win }

/-- The slice A of section 2.6 of the vectors. -/
def sliceA : List Word :=
  [0x0000#16, 0x0001#16, 0x0002#16, 0x0003#16, 0x0004#16, 0x0005#16, 0x0006#16, 0x0007#16,
    0x0008#16, 0x0009#16] ++ List.replicate 12 0x0000#16 ++ [0x3F80#16] ++
    List.replicate 11 0x0000#16 ++ [0x4049#16, 0x0000#16, 0x0000#16, 0x0000#16]

/-- The patterns of the tick of program P1. -/
def patterns1 : Patterns :=
  { sine := 0x00000000#32, cosine := 0x3F800000#32, ramp := 0x0000000000000000#64,
    triangle := 0x4049000000000000#64 }

/-! ### Well-formedness refuses each ill-formed term -/

theorem test_wf_unpk_count : (Instr.unpk .bigEndian 65536).wf = false := by decide
theorem test_wf_wrb_start : (Instr.wrb 65536 1).wf = false := by decide
theorem test_wf_wrb_count : (Instr.wrb 1 65536).wf = false := by decide
theorem test_wf_rdr_start : (Instr.rdr 65536 1).wf = false := by decide
theorem test_wf_rdr_count : (Instr.rdr 1 65536).wf = false := by decide
theorem test_wf_largest : (Instr.wrb 65535 65535).wf = true := by decide

/-! ### Packets written out from the encodings -/

theorem test_decode_encf32 : decode 0x1000000000#40 = some (.encf32 .bigEndian) ∧
    decode 0x1100000000#40 = some (.encf32 .littleEndian) := by decide
theorem test_decode_decf32 : decode 0x2000000000#40 = some (.decf32 .bigEndian) ∧
    decode 0x2100000000#40 = some (.decf32 .littleEndian) := by decide
theorem test_decode_encf64 : decode 0x3000000000#40 = some (.encf64 .bigEndian) ∧
    decode 0x3100000000#40 = some (.encf64 .littleEndian) := by decide
theorem test_decode_decf64 : decode 0x4000000000#40 = some (.decf64 .bigEndian) ∧
    decode 0x4100000000#40 = some (.decf64 .littleEndian) := by decide
theorem test_decode_encu16 : decode 0x5000000000#40 = some .encu16 := by decide
theorem test_decode_decu16 : decode 0x6000000000#40 = some .decu16 := by decide
theorem test_decode_unpk : decode 0x7000000026#40 = some (.unpk .bigEndian 38) ∧
    decode 0x710000001E#40 = some (.unpk .littleEndian 30) := by decide
theorem test_decode_wrb : decode 0x8000140002#40 = some (.wrb 20 2) ∧
    decode 0x8000630002#40 = some (.wrb 99 2) := by decide
theorem test_decode_rdr : decode 0x90005A000B#40 = some (.rdr 90 11) ∧
    decode 0x90FFFFFFFF#40 = some (.rdr 65535 65535) := by decide
theorem test_decode_ctrpub : decode 0xA000000000#40 = some .ctrpub := by decide

/-- V26, V47, V56, V68 and V70 to V78. -/
theorem test_decode_illegal :
    decode 0x5100000000#40 = none ∧ decode 0x8100160002#40 = none ∧ decode 0xA000000001#40 = none ∧
      decode 0x7000010026#40 = none ∧ decode 0x0000000000#40 = none ∧
      decode 0xB000000000#40 = none ∧ decode 0xC000000000#40 = none ∧
      decode 0xD000000000#40 = none ∧ decode 0xE000000000#40 = none ∧
      decode 0xF000000000#40 = none ∧ decode 0x1200000000#40 = none ∧
      decode 0x1800000000#40 = none ∧ decode 0x1000010000#40 = none ∧
      decode 0x3000000004#40 = none ∧ decode 0x9100000026#40 = none ∧
      decode 0xA100000000#40 = none ∧ decode 0xFFFFFFFFFF#40 = none := by decide

theorem test_table_word : decodeTableWord 40 0x9000000026 = some (.rdr 0 38) ∧
    decodeTableWord 40 0xB000000000 = none := by decide

/-! ### One step of each operation -/

/-- V8c: the bits of VIN above the operand are ignored. -/
theorem test_encf32_be_ignores_upper_half :
    reply fresh ⟨.writer, 0x1000000000#40, 0xFFFFFFFF12345678#64, []⟩ =
      some (.ok (.words [0x1234#16, 0x5678#16])) := by decide

/-- V2. -/
theorem test_encf32_le : reply fresh ⟨.reader 1, 0x1100000000#40, 0x12345678#64, []⟩ =
    some (.ok (.words [0x5678#16, 0x1234#16])) := by decide

/-- V8d. -/
theorem test_decf32_be : reply fresh ⟨.writer, 0x2000000000#40, 0#64, [0x1234#16, 0x5678#16]⟩ =
    some (.ok (.value 0x0000000012345678#64)) := by decide

/-- V8f, on a client's own instance. -/
theorem test_decf32_le_of_be :
    reply fresh ⟨.client 0, 0x2100000000#40, 0#64, [0x1234#16, 0x5678#16]⟩ =
      some (.ok (.value 0x0000000056781234#64)) := by decide

/-- V11. -/
theorem test_encf64_be : reply fresh ⟨.writer, 0x3000000000#40, 0x0123456789ABCDEF#64, []⟩ =
    some (.ok (.words [0x0123#16, 0x4567#16, 0x89AB#16, 0xCDEF#16])) := by decide

/-- V12: the full reversal, not a swap inside pairs. -/
theorem test_encf64_le : reply fresh ⟨.writer, 0x3100000000#40, 0x0123456789ABCDEF#64, []⟩ =
    some (.ok (.words [0xCDEF#16, 0x89AB#16, 0x4567#16, 0x0123#16])) := by decide

/-- V19. -/
theorem test_decf64_be :
    reply fresh ⟨.writer, 0x4000000000#40, 0#64, [0x0123#16, 0x4567#16, 0x89AB#16, 0xCDEF#16]⟩ =
      some (.ok (.value 0x0123456789ABCDEF#64)) := by decide

/-- V21. -/
theorem test_decf64_le_of_be :
    reply fresh ⟨.reader 3, 0x4100000000#40, 0#64, [0x0123#16, 0x4567#16, 0x89AB#16, 0xCDEF#16]⟩ =
      some (.ok (.value 0xCDEF89AB45670123#64)) := by decide

/-- V25: the bits above 15 are ignored. -/
theorem test_encu16_ignores_upper_bits :
    reply fresh ⟨.writer, 0x5000000000#40, 0x0000000000010007#64, []⟩ =
      some (.ok (.words [0x0007#16])) := by decide

/-- V26. -/
theorem test_encu16_with_ord : reply fresh ⟨.writer, 0x5100000000#40, 0#64, []⟩ =
    some (.failed (.illegalCommand 0x5100000000#40)) := by decide

/-- V10, and 0xFFFF is 65535. -/
theorem test_decu16 : reply fresh ⟨.writer, 0x6000000000#40, 0#64, [0x0032#16]⟩ =
      some (.ok (.value 0x0032#64)) ∧
    reply fresh ⟨.writer, 0x6000000000#40, 0#64, [0xFFFF#16]⟩ =
      some (.ok (.value 65535#64)) := by decide

/-- V62: the order reaches the floats and not the counters. -/
theorem test_unpk_le : reply fresh ⟨.client 0, 0x7100000026#40, 0#64, sliceA⟩ =
    some (.ok (.fields
      { ctr := [0#16, 1#16, 2#16, 3#16, 4#16, 5#16, 6#16, 7#16, 8#16, 9#16]
        sine := 0#32, cosine := 0x00003F80#32, ramp := 0#64
        triangle := 0x0000000000004049#64 })) := by decide

/-- V63; the missing portion of Scenario D (30 words) is 8. -/
theorem test_unpk_short :
    reply fresh ⟨.client 0, 0x7000000025#40, 0#64, sliceA.take 37⟩ =
        some (.failed (.insufficientData 37)) ∧ missingWords 30 = 8 := by decide

/-- V38. -/
theorem test_wrb_writes :
    (after fresh ⟨.writer, 0x8000160002#40, 0#64, [0x3F80#16, 0x0001#16]⟩).map (·.bank) =
      some [(22, 0x3F80#16), (23, 0x0001#16)] := by decide

/-- V40 and V44. -/
theorem test_wrb_refused :
    reply fresh ⟨.writer, 0x8000630002#40, 0#64, [1#16, 2#16]⟩ =
        some (.failed (.outOfRange 99 2)) ∧
      (after fresh ⟨.writer, 0x8000630002#40, 0#64, [1#16, 2#16]⟩).map (·.bank) = some [] ∧
      reply fresh ⟨.reader 1, 0x8000160002#40, 0#64, [1#16, 2#16]⟩ =
        some (.failed (.illegalCommand 0x8000160002#40)) := by decide

/-- V46, at the end of what the writer wrote. -/
theorem test_rdr_reads :
    reply (block 100 [(22, 0x3F80#16), (24, 7#16)] 0#6) ⟨.reader 1, 0x9000160003#40, 0#64, []⟩ =
      some (.ok (.words [0x3F80#16, 0x0000#16, 0x0007#16])) := by decide

/-- V32 and V37: no 16-bit wrap of the sum. -/
theorem test_rdr_out_of_range :
    reply fresh ⟨.reader 1, 0x90005A000B#40, 0#64, []⟩ = some (.failed (.outOfRange 90 11)) ∧
      reply fresh ⟨.reader 1, 0x90FFFFFFFF#40, 0#64, []⟩ =
        some (.failed (.outOfRange 65535 65535)) := by decide

/-- V51: the wrap inside the batch and of K. Register 1 becomes 0 and leaves the list. -/
theorem test_ctrpub_wraps :
    (after (block 10 [(1, 5#16)] 50#6) ⟨.writer, 0xA000000000#40, 0#64, []⟩).map
        (fun t => (t.bank, t.k)) =
      some ([(0, 50#16), (2, 1#16), (3, 2#16), (4, 3#16), (5, 4#16), (6, 5#16), (7, 6#16),
        (8, 7#16), (9, 8#16)], 0#6) := by decide

/-- V53 and V54. -/
theorem test_ctrpub_refused :
    reply fresh ⟨.reader 1, 0xA000000000#40, 0#64, []⟩ =
        some (.failed (.illegalCommand 0xA000000000#40)) ∧
      reply (block 9 [] 0#6) ⟨.writer, 0xA000000000#40, 0#64, []⟩ =
        some (.failed (.outOfRange 0 10)) ∧
      (after (block 9 [] 7#6) ⟨.writer, 0xA000000000#40, 0#64, []⟩).map (·.k) = some 7#6 := by
  decide

/-! ### Status codes, memory, fetching -/

/-- R110. -/
theorem test_status_codes :
    [Status.ok, .outOfRange, .insufficientData, .transportError, .encodingPrecondition,
      .illegalCommand].map Status.code = [0, 1, 2, 3, 4, 5] := by decide

/-- Zero is not listed, and addresses rise. -/
theorem test_memory_canonical :
    memWrite [(3, 9#16)] 1 [7#16, 0#16, 0#16, 8#16] = [(1, 7#16), (4, 8#16)] ∧
      Memory.wf [(1, 7#16), (4, 8#16)] ∧ ¬ Memory.wf [(4, 8#16), (1, 7#16)] ∧
      ¬ Memory.wf [(1, 0#16)] := by decide

theorem test_reset_memory_wf : Memory.wf State.reset.bank := by decide

/-- The word the host places runs in the very next step, its data zeros of the packet's length. -/
theorem test_fetch_word :
    step (State.reset.withFetchWord 40 0x8000140002) =
      exec (.wrb 20 2) (State.reset.withBus (zeroCommand 0x8000140002#40)) := rfl

/-! ### The hosts, one step each -/

/-- P1 step 1, and what W has still to issue. -/
theorem test_tick_first_step :
    (match writerTurn patterns1 (fresh.withPhase (.ticking (.rational 0) (tick patterns1) [])) with
      | .next t => some (t.k, t.bank.length, t.phase == .ticking (.rational 0) (tick patterns1).tail [])
      | .fault _ => none
      | .refused _ => none) = some (1#6, 9, true) := by decide

/-- P5 step 4: OutOfRange(30, 4), ErrorBackoff, 5 s of sleep, the step after it dropped. -/
theorem test_tick_backs_off :
    (match writerTurn patterns1 ((block 30 [] 1#6).withPhase
        (.ticking (.rational 0) [.write 30#16, .encode64 0#64, .write 34#16]
          [0#16, 0#16, 0#16, 0#16])) with
      | .next t => some (t.wReply, t.loop, t.phase == .sleeping (.rational 5))
      | .fault _ => none
      | .refused _ => none) = some (.failed (.outOfRange 30 4), .errorBackoff, true) := by decide +kernel

/-- R103 at the instants of Scenario B, as section S2 of the vectors works it out. -/
theorem test_triangle : triangle 50 = -50 ∧ triangle 110 = -50 := by
  constructor <;> norm_num [triangle, realMod, Int.floor_eq_iff]

/-! ### Witnesses: a state and operands that meet the hypotheses of each obligation -/

/-- Both kinds of float have an entry in the map. -/
theorem witness_EncodedWidths :
    (∃ e ∈ addressMap, e.kind = .float32) ∧ ∃ e ∈ addressMap, e.kind = .float64 := by decide

/-- Words of each length, and a second state that holds what the first operation returned. -/
theorem witness_FloatRoundTrip :
    (holding fresh .writer 0#64 [0x7F80#16, 0x0001#16]).bus.win.length = 2 ∧
      (holding fresh .writer 0#64 [1#16, 2#16, 3#16, 4#16]).bus.win.length = 4 ∧
      reply fresh ⟨.writer, 0x1100000000#40, 0x7F800001#64, []⟩ =
        some (.ok (.words (holding fresh .writer 0#64 [0x0001#16, 0x7F80#16]).bus.win)) ∧
      reply fresh ⟨.writer, 0x3000000000#40, 0x7FF8000000000001#64, []⟩ =
        some (.ok (.words (holding fresh .writer 0#64
          [0x7FF8#16, 0x0000#16, 0x0000#16, 0x0001#16]).bus.win)) ∧
      reply fresh ⟨.writer, 0x2000000000#40, 0#64, [0x7F80#16, 0x0001#16]⟩ =
        some (.ok (.value (holding fresh .writer 0x7F800001#64 []).bus.vin)) ∧
      reply fresh ⟨.writer, 0x4000000000#40, 0#64, [1#16, 2#16, 3#16, 4#16]⟩ =
        some (.ok (.value (holding fresh .writer 0x0001000200030004#64 []).bus.vin)) := by decide

theorem witness_UInt16RoundTrip :
    (holding fresh .writer 0#64 [0xFFFF#16]).bus.win = [0xFFFF#16] ∧
      reply fresh ⟨.writer, 0x6000000000#40, 0#64, [0xFFFF#16]⟩ =
        some (.ok (.value (holding fresh .writer 0xFFFF#64 []).bus.vin)) := by decide

theorem witness_OrderMismatchReversesWords :
    reply fresh ⟨.writer, 0x1000000000#40, 0x3F800000#64, []⟩ =
        some (.ok (.words (holding fresh .writer 0#64 [0x3F80#16, 0x0000#16]).bus.win)) ∧
      reply fresh ⟨.writer, 0x3100000000#40, 0x4049000000000000#64, []⟩ =
        some (.ok (.words (holding fresh .writer 0#64 [0#16, 0#16, 0#16, 0x4049#16]).bus.win)) := by
  decide

theorem witness_Encf32Result :
    decode 0x1100000000#40 = some (.encf32 .littleEndian) ∧
      (0xABCDABCD#32).extractLsb' 16 16 = (0xABCDABCD#32).extractLsb' 0 16 := by decide

theorem witness_Decf32Result :
    (holding fresh (.client 0) 0#64 [0x3F80#16, 0#16]).bus.win = [0x3F80#16, 0#16] ∧
      decode 0x2100000000#40 = some (.decf32 .littleEndian) := by decide

theorem witness_Decf64Result :
    (holding fresh (.reader 0) 0#64 [1#16, 2#16, 3#16, 4#16]).bus.win =
      [1#16, 2#16, 3#16, 4#16] := by decide

/-- A packet for each field that must be zero. -/
theorem witness_Encu16Result :
    opField 0x5100000000#40 = 5#4 ∧ ordField 0x5100000000#40 = 1#1 ∧
      opField 0x5000010000#40 = 5#4 ∧ addrField 0x5000010000#40 ≠ 0#16 ∧
      opField 0x5000000001#40 = 5#4 ∧ countField 0x5000000001#40 ≠ 0#16 := by decide

theorem witness_Decu16Result :
    (holding fresh .writer 0#64 [0xFFFF#16]).bus.win = [0xFFFF#16] ∧
      opField 0x6100000000#40 = 6#4 ∧ ordField 0x6100000000#40 ≠ 0#1 ∧
      opField 0x6000010000#40 = 6#4 ∧ addrField 0x6000010000#40 ≠ 0#16 ∧
      opField 0x6000000001#40 = 6#4 ∧ countField 0x6000000001#40 ≠ 0#16 := by decide

/-- The shortest slice that is long enough, and a longer one. -/
theorem witness_UnpkPartitionsSlice :
    38 ≤ 38 ∧ (holding fresh (.client 0) 0#64 sliceA).bus.win.length = 38 ∧
      38 ≤ 40 ∧ (holding fresh (.client 0) 0#64 (sliceA ++ [1#16, 2#16])).bus.win.length = 40 ∧
      opField 0x7000010026#40 = 7#4 ∧ addrField 0x7000010026#40 ≠ 0#16 := by decide

/-- V61 and V66 with V65: other words at 10 and at 38 and beyond. -/
theorem witness_UnpkIgnoresOtherWords :
    let s := holding fresh (.client 0) 0#64 sliceA
    let s' := holding fresh .writer 0#64 (sliceA.set 10 0xFFFF#16 ++ [0xDEAD#16, 0xBEEF#16])
    s.bus.win.length = 38 ∧ s'.bus.win.length = 40 ∧ 38 ≤ 38 ∧ 38 ≤ 40 ∧
      (∀ a < 38, isMapped a = true → s.bus.win.getD a 0 = s'.bus.win.getD a 0) ∧
      returns (exec (.unpk .bigEndian 38) s) s (.fields (unpack .bigEndian s.bus.win)) ∧
      returns (exec (.unpk .bigEndian 40) s') s' (.fields (unpack .bigEndian s'.bus.win)) :=
  ⟨by decide, by decide, by decide, by decide, by decide, finish_returns _ _, finish_returns _ _⟩

/-- 37 words are too few, and 38 give fields. -/
theorem witness_UnpkShortSliceFails :
    37 < 38 ∧ ∃ t f, exec (.unpk .bigEndian 38) (holding fresh (.client 0) 0#64 sliceA) = .next t ∧
      t.replyAt (.client 0) = .ok (.fields f) :=
  ⟨by decide, _, _, rfl, rfl⟩

/-- The last span that fits. -/
theorem witness_WrbWritesBatch :
    let s := holding fresh .writer 0#64 [0x0001#16, 0x0002#16]
    s.bus.port = .writer ∧ 98 + 2 ≤ s.cfg.n ∧ s.bus.win.length = 2 := by decide

/-- The first span that does not. -/
theorem witness_WrbOutOfRangeWritesNothing :
    let s := holding fresh .writer 0#64 [0x0001#16, 0x0002#16]
    s.bus.port = .writer ∧ s.cfg.n < 99 + 2 := by decide

/-- The last span that fits and the first that does not, on a reader port and on the writer port. -/
theorem witness_RdrSnapshotOrOutOfRange :
    (∀ c, (holding fresh (.reader 1) 0#64 []).bus.port ≠ .client c) ∧
      (∀ c, (holding fresh .writer 0#64 []).bus.port ≠ .client c) ∧
      90 + 10 ≤ fresh.cfg.n ∧ fresh.cfg.n < 90 + 11 ∧
      opField 0x9100000026#40 = 9#4 ∧ ordField 0x9100000026#40 ≠ 0#1 :=
  ⟨nofun, nofun, by decide, by decide, by decide, by decide⟩

/-- A read of register 22, and then a write of it. -/
theorem witness_ReadResultIsACopy :
    let s := holding (block 100 [(22, 7#16)] 0#6) (.reader 1) 0#64 []
    let q : Issue := ⟨.writer, 0x8000160001#40, 0#64, [8#16]⟩
    ∃ t u, s.bus.port = .reader 1 ∧ exec (.rdr 22 1) s = .next t ∧
      t.replyAt (.reader 1) = .ok (.words [7#16]) ∧ q.port = .writer ∧
      exec (.wrb 22 1) (t.withBus q) = .next u ∧ u.bank.read 22 = 8#16 :=
  ⟨_, _, rfl, rfl, rfl, rfl, rfl, rfl⟩

theorem witness_WrbTwiceIsWrbOnce :
    let s := holding (block 100 [(22, 7#16)] 0#6) .writer 0#64 [0#16, 9#16]
    ∃ t u, s.bank.wf ∧ s.bus.port = .writer ∧ exec (.wrb 22 2) s = .next t ∧
      exec (.wrb 22 2) t = .next u :=
  ⟨_, _, by decide, rfl, rfl, rfl⟩

/-- V35 and V36: at N and just beyond. -/
theorem witness_EmptySpans :
    (∀ c, (holding fresh (.reader 1) 0#64 []).bus.port ≠ .client c) ∧
      (holding fresh .writer 0#64 []).bus.port = .writer ∧
      (holding fresh .writer 0#64 []).bus.win = [] ∧ 100 ≤ fresh.cfg.n ∧ fresh.cfg.n < 101 :=
  ⟨nofun, by decide, by decide, by decide, by decide⟩

/-- V55: the smallest bank with room. -/
theorem witness_CtrpubPublishesAndAdvances :
    let s := holding (block 10 [] 7#6) .writer 0#64 []
    s.bus.port = .writer ∧ 10 ≤ s.cfg.n := by decide

/-- V54: the largest without. -/
theorem witness_CtrpubOutOfRangeKeepsTickIndex :
    let s := holding (block 9 [] 7#6) .writer 0#64 []
    s.bus.port = .writer ∧ s.cfg.n < 10 := by decide

/-- counters(41) is 41 to 50, without a wrap. -/
theorem witness_CountersFormula : 9 < 10 ∧ ((counters 41).getD 9 0).toNat = 50 := by decide

/-- counters(42) wraps at its last element, counters(41) does not. -/
theorem witness_CountersBoundAndShape :
    8 < 9 ∧ ((counters 42).getD 8 0).toNat = 50 ∧ (counters 42).getD 9 0 = 0 ∧ 42 ≤ 42 % 51 ∧
      ¬ 42 ≤ 41 % 51 := by decide

theorem witness_CountersAfterManyCtrpubs :
    let s := (block 10 [] 0#6).withSchedule
      (List.replicate 2 ctrpubEvent ++ [.serverRead 0 0#16 10#16])
    s.k = 0#6 ∧ 10 ≤ s.cfg.n ∧
      s.schedule = List.replicate 2 ctrpubEvent ++ [.serverRead 0 0#16 10#16] ∧ 1 ≤ 2 := by decide

/-- An operation that fails and one that does not. -/
theorem witness_WhichOperationRaisesWhat :
    let s := holding fresh (.reader 1) 0#64 []
    ∃ t u, (∀ c, s.bus.port ≠ .client c) ∧ exec (.rdr 90 11) s = .next t ∧
      exec (.rdr 90 10) s = .next u ∧ t.replyAt s.bus.port = .failed (.outOfRange 90 11) :=
  ⟨_, _, nofun, rfl, rfl, rfl⟩

/-- A client that waits for an answer. -/
def waiting : State :=
  fresh.withClient 4 { Client.initial with request := some (.ok (.words sliceA)) }

theorem witness_BlockNeverRaisesReservedErrors :
    (∃ t, issue ⟨.writer, 0x0000000000#40, 0#64, []⟩ fresh = .next t) ∧
      (waiting.client 4).request ≠ none :=
  ⟨⟨_, rfl⟩, by decide⟩

theorem witness_ReaderPortsCannotWrite :
    (holding fresh (.reader 1) 0#64 []).bus.port = .reader 1 := by decide

theorem witness_ClientInstancesHaveNoBank :
    (holding fresh (.client 2) 0#64 []).bus.port = .client 2 := by decide

/-- One word too few, for each clause. -/
theorem witness_WrongWordCountStops :
    (holding fresh .writer 0#64 [1#16]).bus.win.length ≠ 2 ∧
      (holding fresh .writer 0#64 [1#16, 2#16, 3#16]).bus.win.length ≠ 4 ∧
      (holding fresh .writer 0#64 []).bus.win.length ≠ 1 ∧
      38 ≤ 38 ∧ (holding fresh .writer 0#64 (sliceA.take 37)).bus.win.length ≠ 38 ∧
      (holding fresh .writer 0#64 [1#16]).bus.port = .writer ∧ 98 + 2 ≤ fresh.cfg.n ∧
      (holding fresh .writer 0#64 [1#16]).bus.win.length ≠ 2 := by decide

/-- The two commands of the vectors' paragraph on priority, and the second on the writer port. -/
theorem witness_ErrorPriority :
    decode 0x8100630002#40 = none ∧ decode 0x8000630002#40 = some (.wrb 99 2) ∧
      fresh.cfg.n < 99 + 2 := by decide

theorem witness_PureOperationsUseOperandsOnly :
    let s := holding fresh (.client 0) 5#64 [1#16, 2#16]
    let s' := holding (block 3 [(1, 9#16)] 4#6) .writer 5#64 [1#16, 2#16]
    ∃ t, (Instr.decf32 .littleEndian).mnemonic ∈
        ["ENCF32", "DECF32", "ENCF64", "DECF64", "ENCU16", "DECU16", "UNPK"] ∧
      s'.bus.vin = s.bus.vin ∧ s'.bus.win = s.bus.win ∧
      exec (.decf32 .littleEndian) s = .next t :=
  ⟨_, by decide, rfl, rfl, rfl⟩

theorem witness_ReaderChangesNothingObservable :
    let q : Issue := ⟨.reader 1, 0x8000160001#40, 0#64, [8#16]⟩
    ∃ t, q.port = .reader 1 ∧ issue q fresh = .next t :=
  ⟨_, rfl, rfl⟩

/-- A reader between two steps of the writer. -/
theorem witness_ReadersDoNotInfluenceTheWriter :
    let events := [ctrpubEvent, .serverRead 0 0#16 10#16, ctrpubEvent]
    let s := fresh.withSchedule events
    ∃ t u, s.schedule = events ∧ run events.length s = .next t ∧
      (events.filter fun e => !e.isReading).length = 2 ∧
      run 2 (s.withSchedule (events.filter fun e => !e.isReading)) = .next u :=
  ⟨_, _, rfl, rfl, rfl, rfl⟩

theorem witness_DecodeOfEncode : (Instr.wrb 65535 65535).wf = true := by decide

theorem witness_EncodeOfDecode : decode 0x90FFFFFFFF#40 = some (.rdr 65535 65535) := by decide

theorem witness_DecoderAgreesWithTable :
    decode 0x7100000025#40 = some (.unpk .littleEndian 37) ∧
      ∃ r ∈ opTable, r.selects 0x7100000025#40 = true := by decide

theorem witness_StepRunsDecodedCommand :
    let q : Issue := ⟨.writer, 0xA000000000#40, 0#64, []⟩
    (fresh.withSchedule [.command q]).schedule = .command q :: [] ∧
      decode q.cmd = some .ctrpub ∧ Instr.ctrpub.wf = true := by decide

theorem witness_StepRefusesIllegalPacket :
    let q : Issue := ⟨.reader 2, 0xFFFFFFFFFF#40, 0#64, [1#16]⟩
    (fresh.withSchedule [.command q]).schedule = .command q :: [] ∧ decode q.cmd = none := by decide

/-- A step that changes both BANK and K. -/
theorem witness_OnlyWriterCommandsChangeBank :
    ∃ t, step (fresh.withSchedule [ctrpubEvent]) = .next t ∧ t.bank ≠ fresh.bank ∧ t.k ≠ fresh.k :=
  ⟨_, rfl, by decide, by decide⟩

/-- The default times, with any number of registers within the bound. -/
theorem default_times_wf (n : Nat) (h : n ≤ 65535) : Cfg.wf { Cfg.default with n := n } :=
  ⟨h, by norm_num [Cfg.default], by norm_num [Cfg.default]⟩

/-- The bounds of N. -/
theorem witness_InvHoldsAtReset :
    (Cfg.wf { Cfg.default with n := 0 }) ∧ Cfg.wf { Cfg.default with n := 65535 } :=
  ⟨default_times_wf 0 (by decide), default_times_wf 65535 (by decide)⟩

theorem fresh_inv : Inv (fresh.withSchedule [ctrpubEvent]) :=
  ⟨default_times_wf 100 (by decide), by decide, by decide, by decide, by decide, by decide, by decide,
    le_refl _, nofun⟩

theorem witness_StepKeepsInv :
    ∃ t, Inv (fresh.withSchedule [ctrpubEvent]) ∧ step (fresh.withSchedule [ctrpubEvent]) = .next t :=
  ⟨_, fresh_inv, rfl⟩

/-- A state with a command, a reading and a turn of W still to come. -/
theorem witness_PresentableStateNeverStops :
    (fresh.withSchedule [.command ⟨.writer, 0x8000160001#40, 0#64, [8#16]⟩, .serverRead 0 0#16 1#16,
      .writerTurn patterns1]).presentable :=
  ⟨by decide, by decide, by decide, fun _ => by simp [fresh, block, State.reset, State.client,
    State.withSchedule, Client.initial, Client.wordsWaiting], fun p => by
      cases p <;> simp [fresh, block, State.reset, State.replyAt, State.client, State.withSchedule,
        Client.initial, Reply.wordsOf]⟩

/-- The ends of an entry. -/
theorem witness_AddressMapIsSound :
    (∃ e ∈ addressMap, e.covers 9 = true) ∧ (∃ e ∈ addressMap, e.covers 37 = true) ∧
      (∃ e ∈ addressMap, e.kind = (⟨.uint16 0#16, 9⟩ : LogicalValue).kind) ∧
      (∃ e ∈ addressMap, e.kind = (⟨.float32 0#32, 20⟩ : LogicalValue).kind) ∧
      (∃ e ∈ addressMap, e.kind = (⟨.float64 0#64, 34⟩ : LogicalValue).kind) ∧
      (⟨.uint16 50#16, 9⟩ : LogicalValue) ∈ tickValues 41 patterns1 ∧
      (⟨.float64 0x4049000000000000#64, 34⟩ : LogicalValue) ∈ tickValues 41 patterns1 := by decide

theorem witness_HostInvHoldsAtReset :
    ∀ e ∈ [Event.writerTurn patterns1, .serverRead 0 0#16 38#16, .clientRequest 1 0,
      .command ⟨.reader 3, 0x8000160001#40, 0#64, [8#16]⟩], e.sparesWriterPort = true := by decide

/-- W about to write COSINE in a tick. -/
def publishing : State :=
  (fresh.withPhase
    (.ticking (.rational 0) ((tick patterns1).drop 4) [0x3F80#16, 0x0000#16])).withSchedule
      [.writerTurn patterns1]

theorem publishing_hostInv : HostInv publishing := ⟨by decide, by decide, fun _ _ => rfl⟩

theorem witness_StepKeepsHostInv : ∃ t, HostInv publishing ∧ step publishing = .next t :=
  ⟨_, publishing_hostInv, rfl⟩

/-- COSINE changes as a whole; and the counters do at the tick's first step. -/
theorem witness_EntriesChangeAsAWhole :
    (∃ t, HostInv publishing ∧ step publishing = .next t ∧
      ∃ e ∈ addressMap, e.name = "COSINE" ∧ memRead t.bank e.start e.length = [0x3F80#16, 0#16]) ∧
    let s := (fresh.withPhase (.ticking (.rational 0) (tick patterns1) [])).withSchedule
      [.writerTurn patterns1]
    ∃ t, HostInv s ∧ step s = .next t ∧ memRead t.bank 0 10 = counters 0 :=
  ⟨⟨_, publishing_hostInv, rfl, by decide⟩, _, ⟨by decide, by decide, fun _ _ => rfl⟩, rfl, by decide⟩

/-- For each entry of the map a bank that just holds it, and one with a word fewer. -/
theorem witness_TickPublishesWhatFits :
    ∀ n ∈ [38, 37, 34, 33, 24, 23, 22, 21, 10, 9],
      let s := ((block n [] 0#6).withPhase .boundary).withSchedule
        (List.replicate 10 (.writerTurn patterns1) ++ [.stopSignal true])
      s.cfg.wf ∧ s.phase = .boundary ∧ s.stop = false ∧ s.loop = .running ∧
        s.schedule = List.replicate 10 (.writerTurn patterns1) ++ [.stopSignal true] := by
  intro n hn
  refine ⟨default_times_wf n ?_, rfl, rfl, rfl, rfl⟩
  revert n
  decide

/-- W asleep until one second after reset. -/
def asleep : State := fresh.withPhase (.sleeping (.rational 1))

/-- Every place of the writer host between ticks, a sleep at and before its end. -/
theorem witness_WriterLoopBetweenTicks :
    fresh.phase = .starting ∧ (fresh.withPhase .boundary).phase = .boundary ∧
      ((fresh.withPhase .boundary).withStop true).stop = true ∧
      (fresh.withPhase .boundary).stop = false ∧
      (asleep.withNow (.rational 0)).phase = .sleeping (.rational 1) ∧
      (asleep.withNow (.rational 0)).now.value < (Seconds.rational 1).value ∧
      (asleep.withNow (.rational 1)).phase = .sleeping (.rational 1) ∧
      (Seconds.rational 1).value ≤ (asleep.withNow (.rational 1)).now.value ∧
      (fresh.withPhase .exited).phase = .exited :=
  ⟨rfl, rfl, rfl, rfl, rfl, by norm_num [asleep], rfl, by norm_num [asleep], rfl⟩

theorem witness_WriterExitsOnlyOnStopAtBoundary :
    let s := ((fresh.withPhase .boundary).withStop true).withSchedule
      [.writerTurn patterns1, .writerTurn patterns1]
    ∃ t u, step s = .next t ∧ t.phase = .exited ∧ step t = .next u :=
  ⟨_, _, rfl, rfl, rfl⟩

/-- A failing step of a tick, and the end of the back-off it leads to. -/
theorem witness_ErrorBackoffEntryAndReturn :
    let s := ((block 37 [] 0#6).withPhase
      (.ticking (.rational 0) [.write 34#16] [0#16, 0#16, 0#16, 0#16])).withSchedule
        [.writerTurn patterns1]
    let s' := (((fresh.withLoop .errorBackoff).withPhase (.sleeping (.rational 5))).withNow
      (.rational 5)).withSchedule [.writerTurn patterns1]
    ∃ t t', step s = .next t ∧ s.loop = .running ∧ t.loop = .errorBackoff ∧
      step s' = .next t' ∧ s'.loop = .errorBackoff ∧ t'.loop = .running :=
  ⟨_, _, rfl, rfl, rfl, rfl, rfl, rfl⟩

/-- A delivery of all 38 words and one of 37, in the smallest bank that holds the map. -/
theorem witness_ClientReadReturnsTheBank :
    ∀ m ∈ [38, 37],
      let s := (block 38 [] 0#6).withSchedule
        [.clientRequest 4 0, .clientDeliver 4 (.first m)]
      38 ≤ s.cfg.n ∧ (s.client 4).request = none ∧
        s.schedule = .clientRequest 4 0 :: .clientDeliver 4 (.first m) :: [] := by decide

theorem witness_TransportErrorPassesThrough :
    let s := waiting.withSchedule [.clientDeliver 4 (.error 17)]
    (s.client 4).request ≠ none ∧ s.schedule = .clientDeliver 4 (.error 17) :: [] := by decide

theorem witness_ClientReadsWhatTheTickPublished :
    let s := ((block 38 [] 0#6).withPhase .boundary).withSchedule
      (List.replicate 10 (.writerTurn patterns1) ++
        [.clientRequest 4 0, .clientDeliver 4 (.first 38)])
    s.cfg.wf ∧ 38 ≤ s.cfg.n ∧ s.phase = .boundary ∧ s.stop = false ∧ s.loop = .running ∧
      (s.client 4).request = none ∧ (s.client 4).order = s.cfg.order ∧
      s.schedule = List.replicate 10 (.writerTurn patterns1) ++
        [.clientRequest 4 0, .clientDeliver 4 (.first 38)] :=
  ⟨default_times_wf 38 (by decide), by decide, rfl, rfl, rfl, rfl, rfl, rfl⟩

end Sys2Proof.Tests
end

/-! SUPPORT and proofs for the statements about the state (10_state.md): what CTRPUB does to BANK and K,
and what the pure operations depend on. -/

namespace Sys2Proof.Machine

variable {s t : State}

/-! ### CTRPUB -/

/-- Element i of the counters, as a number (R84). -/
theorem counters_getD_toNat (k : Nat) {i : Nat} (hi : i < 10) :
    ((counters k).getD i 0#16).toNat = (k + i) % 51 := by
  have hrange : (List.range counterCount)[i]? = some i := List.getElem?_range hi
  have hfits : (k + i) % 51 < 2 ^ 16 := by omega
  simp only [counters, List.getD, List.getElem?_map, hrange, Option.map_some, Option.getD_some,
    counterModulus, BitVec.toNat_ofNat, Nat.mod_eq_of_lt hfits]

/-- A tick index and its residue have the same counters (R20). -/
theorem counters_mod (k : Nat) : counters k = counters (k % 51) := by
  simp only [counters, counterModulus, Nat.mod_add_mod]

/-- CTRPUB with room for it: the ten counters, the next tick index and the reply, in one step (R86). -/
theorem exec_ctrpub_next (hp : s.bus.port = .writer) (hn : 10 ≤ s.cfg.n) :
    exec .ctrpub s =
      .next (((s.withBank (memWrite s.bank 0 (counters s.k.toNat))).withK
        (nextTickIndex s.k)).withReply .writer (.ok .nothing)) := by
  rw [exec_ctrpub_inside hp hn, finish_eq, flatMap_encU16, State.withK_bus, State.withBank_bus, hp]

/-- Inside its span the batch of the counters reads back as the counters. -/
theorem memWrite_counters_read_toNat (m : Memory) (k : Nat) {i : Nat} (hi : i < 10) :
    ((memWrite m 0 (counters k)).read i).toNat = (k + i) % 51 := by
  have hspan : 0 ≤ i ∧ i < 0 + (counters k).length := by
    rw [counters_length]
    omega
  rw [memWrite_read, if_pos hspan, Nat.sub_zero, counters_getD_toNat k hi]

/-- Settles O23: the completing case of CTRPUB is one explicit next state, and each clause reads one
part of it. -/
theorem ctrpubPublishesAndAdvances : Obligations.CtrpubPublishesAndAdvances := by
  refine ⟨fun s hp hn => ⟨_, exec_ctrpub_next hp hn, State.withReply_replyAt_same _ _ _,
    fun i hi => ?registers, ?tickIndex, fun a ha => ?outside, s.restSame_withReply _ _ _ _⟩,
    counters_mod⟩
  case registers =>
    rw [State.withReply_bank, State.withK_bank, State.withBank_bank]
    exact memWrite_counters_read_toNat _ _ hi
  case tickIndex =>
    rw [State.withReply_k, State.withK_k]
    exact nextTickIndex_toNat s.k
  case outside =>
    rw [State.withReply_bank, State.withK_bank, State.withBank_bank]
    exact memWrite_read_outside _ _ _ (by rwa [counters_length])

/-! ### The pure operations

DECF32, DECF64, DECU16 and UNPK complete for some word operands only; where they do, the reply they give
is one that any state with these operands gets. -/

theorem exec_decf32_win {o : Order} (h : exec (.decf32 o) s = .next t) :
    ∃ reg0 reg1, s.bus.win = [reg0, reg1] := by
  simp only [exec, execDecf32] at h
  split at h
  · exact ⟨_, _, ‹_›⟩
  · cases h

theorem exec_decf64_win {o : Order} (h : exec (.decf64 o) s = .next t) :
    ∃ reg0 reg1 reg2 reg3, s.bus.win = [reg0, reg1, reg2, reg3] := by
  simp only [exec, execDecf64] at h
  split at h
  · exact ⟨_, _, _, _, ‹_›⟩
  · cases h

theorem exec_decu16_win (h : exec .decu16 s = .next t) : ∃ reg, s.bus.win = [reg] := by
  simp only [exec, execDecu16] at h
  split at h
  · exact ⟨_, ‹_›⟩
  · cases h

theorem exec_unpk_win {o : Order} {count : Nat} (hc : 38 ≤ count)
    (h : exec (.unpk o count) s = .next t) : s.bus.win.length = count := by
  by_contra hw
  rw [exec_unpk_full hc, withWords_ne hw] at h
  cases h

/-- In every state that presents the operands `vin` and `win`, on whatever port, the operation replies
`r` there and does nothing else. -/
def RepliesToOperands (i : Instr) (vin : Bits64) (win : List Word) (r : Reply) : Prop :=
  ∀ s : State, s.bus.vin = vin → s.bus.win = win →
    exec i s = .next (s.withReply s.bus.port r)

/-- R21: a pure operation that completes gives the reply of its operands. -/
theorem pure_repliesToOperands {i : Instr}
    (hi : i.mnemonic ∈ ["ENCF32", "DECF32", "ENCF64", "DECF64", "ENCU16", "DECU16", "UNPK"])
    (h : exec i s = .next t) : ∃ r, RepliesToOperands i s.bus.vin s.bus.win r := by
  cases i with
  | encf32 o =>
    refine ⟨.ok (.words (encF32 (s.bus.vin.extractLsb' 0 32) o)), fun u hv _ => ?_⟩
    rw [← hv]
    rfl
  | decf32 o =>
    obtain ⟨reg0, reg1, hw⟩ := exec_decf32_win h
    exact ⟨_, fun u _ hu => exec_decf32_pair (hu.trans hw)⟩
  | encf64 o =>
    refine ⟨.ok (.words (encF64 s.bus.vin o)), fun u hv _ => ?_⟩
    rw [← hv]
    rfl
  | decf64 o =>
    obtain ⟨reg0, reg1, reg2, reg3, hw⟩ := exec_decf64_win h
    exact ⟨_, fun u _ hu => exec_decf64_quad (hu.trans hw)⟩
  | encu16 =>
    refine ⟨.ok (.words (encU16 (s.bus.vin.extractLsb' 0 16))), fun u hv _ => ?_⟩
    rw [← hv]
    rfl
  | decu16 =>
    obtain ⟨reg, hw⟩ := exec_decu16_win h
    exact ⟨_, fun u _ hu => exec_decu16_single (hu.trans hw)⟩
  | unpk o count =>
    by_cases hc : count < 38
    · exact ⟨_, fun u _ _ => exec_unpk_short hc⟩
    · have hc : 38 ≤ count := Nat.not_lt.1 hc
      have hw : s.bus.win.length = count := exec_unpk_win hc h
      refine ⟨.ok (.fields (unpack o s.bus.win)), fun u _ hu => ?_⟩
      rw [exec_unpk_full hc, withWords_length (by rw [hu, hw]), hu, finish_eq]
  | wrb start count => simp [Instr.mnemonic] at hi
  | rdr start count => simp [Instr.mnemonic] at hi
  | ctrpub => simp [Instr.mnemonic] at hi

/-- Settles O34: the reply of the operands is what both states show, and all that either changes. -/
theorem pureOperationsUseOperandsOnly : Obligations.PureOperationsUseOperandsOnly := by
  intro i s s' t hi hvin hwin h
  obtain ⟨r, hr⟩ := pure_repliesToOperands hi h
  have ht : t = s.withReply s.bus.port r := Host.Outcome.next.inj (h.symm.trans (hr s rfl rfl))
  subst ht
  refine ⟨s.onlyReply_withReply r, _, hr s' hvin hwin, ?_⟩
  rw [State.withReply_replyAt_same, State.withReply_replyAt_same]

end Sys2Proof.Machine

/-! SUPPORT and proofs for the statement about memory (20_memory.md): the layout of two words (R36, R38). -/

namespace Sys2Proof.Machine

@[simp] theorem ord2_bigEndian (ws : Word × Word) : ord2 .bigEndian ws = ws := rfl

@[simp] theorem ord2_littleEndian (ws : Word × Word) : ord2 .littleEndian ws = ws.swap := rfl

/-- R38: `ord2` is its own inverse for each order. -/
theorem ord2_involutive (o : Order) : Function.Involutive (ord2 o) := by
  intro ws
  cases o with
  | bigEndian => rw [ord2_bigEndian, ord2_bigEndian]
  | littleEndian => rw [ord2_littleEndian, ord2_littleEndian, Prod.swap_swap]

theorem encF32_bigEndian (v : Bits32) :
    encF32 v .bigEndian = [v.extractLsb' 16 16, v.extractLsb' 0 16] := by
  rw [encF32, ord2_bigEndian, split32, pairList]

theorem encF32_littleEndian (v : Bits32) :
    encF32 v .littleEndian = [v.extractLsb' 0 16, v.extractLsb' 16 16] := by
  rw [encF32, ord2_littleEndian, split32, Prod.swap_prod_mk, pairList]

/-- Settles O2: LittleEndian is the exchange of a pair, and the register table of a float32 is
`split32` under each order. -/
theorem twoWordOrderLayout : Obligations.TwoWordOrderLayout := fun a b o v =>
  ⟨ord2_bigEndian (a, b), ord2_littleEndian (a, b), ord2_involutive o (a, b),
    encF32_bigEndian v, encF32_littleEndian v⟩

end Sys2Proof.Machine

/-! SUPPORT and proofs for the statements about the float codec (40_float_codec.md): what the encode
operations answer (R67, R69), how many words that is (R72), and the packets of ENCF32. -/

namespace Sys2Proof.Machine

variable (o : Order) (s : State)

/-! ### The operations -/

/-- ENCF32 has no operand it refuses and no effect beside its reply (R67, R74). -/
theorem exec_encf32_returns :
    returns (exec (.encf32 o) s) s (.words (encF32 (vin32 s) o)) :=
  finish_returns s _

/-- ENCF64 has no operand it refuses and no effect beside its reply (R69, R74). -/
theorem exec_encf64_returns :
    returns (exec (.encf64 o) s) s (.words (encF64 (vin64 s) o)) :=
  finish_returns s _

/-! ### Widths -/

@[simp] theorem pairList_length (ws : Word × Word) : (pairList ws).length = 2 := rfl

@[simp] theorem quadList_length (ws : Word × Word × Word × Word) : (quadList ws).length = 4 := rfl

@[simp] theorem encF32_length (v : Bits32) : (encF32 v o).length = 2 := pairList_length _

@[simp] theorem encF64_length (v : Bits64) : (encF64 v o).length = 4 := quadList_length _

/-- A float entry of the address map holds a single value (R17). -/
theorem addressMap_float_items :
    ∀ e ∈ addressMap, e.kind = .float32 ∨ e.kind = .float64 → e.items = 1 := by
  decide

/-- So the length of a float entry is the encoded width of its kind. -/
theorem addressMap_float_length {e : MapEntry} (he : e ∈ addressMap)
    (hk : e.kind = .float32 ∨ e.kind = .float64) : e.length = e.kind.width := by
  rw [MapEntry.length, addressMap_float_items e he hk, Nat.one_mul]

/-- Settles O4: the words are a pair and a quadruple whatever the order, and a float entry is as long
as one value of its kind. -/
theorem encodedWidths : Obligations.EncodedWidths := by
  refine ⟨fun o s => ⟨?single, ?double⟩, fun e he => ⟨fun hk => ?entry32, fun hk => ?entry64⟩⟩
  case single =>
    obtain ⟨t, ht, hreply, -⟩ := exec_encf32_returns o s
    exact ⟨t, _, ht, hreply, encF32_length o _⟩
  case double =>
    obtain ⟨t, ht, hreply, -⟩ := exec_encf64_returns o s
    exact ⟨t, _, ht, hreply, encF64_length o _⟩
  case entry32 => rw [addressMap_float_length he (.inl hk), hk, Kind.width]
  case entry64 => rw [addressMap_float_length he (.inr hk), hk, Kind.width]

/-! ### ENCF32 -/

/-- A word cut from VIN[31:0] is the word cut from VIN at the same place. -/
theorem vin32_extractLsb' {start : Nat} (h : start + 16 ≤ 32) :
    (vin32 s).extractLsb' start 16 = s.bus.vin.extractLsb' start 16 := by
  ext i hi
  have hin : start + i < 32 := by omega
  simp [vin32, hin]

theorem encF32_vin32_bigEndian :
    encF32 (vin32 s) .bigEndian = [s.bus.vin.extractLsb' 16 16, s.bus.vin.extractLsb' 0 16] := by
  rw [encF32_bigEndian, vin32_extractLsb' s (by decide), vin32_extractLsb' s (by decide)]

theorem encF32_vin32_littleEndian :
    encF32 (vin32 s) .littleEndian = [s.bus.vin.extractLsb' 0 16, s.bus.vin.extractLsb' 16 16] := by
  rw [encF32_littleEndian, vin32_extractLsb' s (by decide), vin32_extractLsb' s (by decide)]

/-- The packets of ENCF32 leave only ORD free (R57, R59). -/
theorem decode_encf32_fields {p : Packet} {o : Order} (h : decode p = some (.encf32 o)) :
    opField p = 1#4 ∧ addrField p = 0#16 ∧ countField p = 0#16 := by
  obtain ⟨-, hspells⟩ := decode_spells h
  cases hspells with
  | encf32 hop haddr hcount => exact ⟨hop, haddr, hcount⟩

/-- The orders differ only in exchanging the halves, so equal halves hide the order (R67). -/
theorem encF32_order_irrelevant {v : Bits32} (h : v.extractLsb' 16 16 = v.extractLsb' 0 16) :
    encF32 v .bigEndian = encF32 v .littleEndian := by
  rw [encF32_bigEndian, encF32_littleEndian, h]

/-- Settles O8: the operation returns `encF32` of VIN[31:0], whose words are read off under each order;
the packet clauses are facts about `decode`. -/
theorem encf32Result : Obligations.Encf32Result := by
  refine ⟨fun o s => ?words, by decide, by decide, fun _ _ => decode_encf32_fields,
    fun _ => encF32_order_irrelevant, by decide, by decide⟩
  case words =>
    cases o with
    | bigEndian => exact encF32_vin32_bigEndian s ▸ exec_encf32_returns .bigEndian s
    | littleEndian => exact encF32_vin32_littleEndian s ▸ exec_encf32_returns .littleEndian s

end Sys2Proof.Machine

/-! SUPPORT and proofs for the statements about the uint16 codec (41_uint16_codec.md): what ENCU16 and
DECU16 answer (R75, R76), that each undoes the other (R77), and their packets. -/

namespace Sys2Proof.Machine

variable {s : State} {p : Packet}

/-! ### The operations -/

/-- ENCU16 takes VIN[15:0], whatever the bits above, and has no effect beside its reply (R75). -/
theorem exec_encu16_returns (s : State) :
    returns (exec .encu16 s) s (.words [s.bus.vin.extractLsb' 0 16]) :=
  finish_returns s _

/-- DECU16 accepts every word and has no effect beside its reply (R76). -/
theorem exec_decu16_returns {reg : Word} (h : s.bus.win = [reg]) :
    returns (exec .decu16 s) s (.value (reg.setWidth 64)) := by
  rw [exec_decu16_single h]
  exact finish_returns s _

/-- Zero extension to 64 bits keeps the word in the low 16. -/
theorem extractLsb'_setWidth_word (w : Word) : (w.setWidth 64).extractLsb' 0 16 = w := by
  rw [BitVec.extractLsb'_setWidth_of_le (by decide), BitVec.extractLsb'_eq_self]

/-- An operation that returns a result shows it on the issuing port. -/
theorem next_replyAt_of_returns {o : Host.Outcome State Fault Refusal} {r : Result}
    (h : returns o s r) : ∃ t, o = .next t ∧ t.replyAt s.bus.port = .ok r := by
  obtain ⟨t, ht, hreply, -⟩ := h
  exact ⟨t, ht, hreply⟩

/-- Settles O6: the one word ENCU16 answers is the word DECU16 extends, and the extension keeps it in
VIN[15:0]. -/
theorem uInt16RoundTrip : Obligations.UInt16RoundTrip := by
  refine ⟨fun s s' => ?decodeOfEncode, fun s s' w hw => ?encodeOfDecode⟩
  case decodeOfEncode =>
    obtain ⟨t, ht, hreply⟩ := next_replyAt_of_returns (exec_encu16_returns s)
    exact ⟨t, _, ht, hreply, fun hwin => next_replyAt_of_returns (exec_decu16_returns hwin)⟩
  case encodeOfDecode =>
    obtain ⟨t, ht, hreply⟩ := next_replyAt_of_returns (exec_decu16_returns hw)
    refine ⟨t, _, ht, hreply, fun hvin => ?_⟩
    have hback : s'.bus.vin.extractLsb' 0 16 = w := by rw [hvin, extractLsb'_setWidth_word]
    exact hback ▸ next_replyAt_of_returns (exec_encu16_returns s')

/-! ### The packets -/

/-- A packet of OP 5 or 6 that spells an operation has ORD, ADDR and COUNT zero (R57). -/
theorem spells_uint16_fields {i : Instr} (h : Spells p i)
    (hop : opField p = 5#4 ∨ opField p = 6#4) :
    ordField p = 0#1 ∧ addrField p = 0#16 ∧ countField p = 0#16 := by
  cases h
  case encu16 _ hord haddr hcount => exact ⟨hord, haddr, hcount⟩
  case decu16 _ hord haddr hcount => exact ⟨hord, haddr, hcount⟩
  all_goals exact absurd hop (by rw [‹opField p = _›]; decide)

/-- OP 5 or 6 with a "fixed 0" field that is not zero is an illegal packet (R59). -/
theorem decode_uint16_eq_none (hop : opField p = 5#4 ∨ opField p = 6#4)
    (hfield : ordField p ≠ 0#1 ∨ addrField p ≠ 0#16 ∨ countField p ≠ 0#16) : decode p = none := by
  refine Option.eq_none_iff_forall_ne_some.2 fun i hi => ?_
  obtain ⟨-, hspells⟩ := decode_spells hi
  obtain ⟨hord, haddr, hcount⟩ := spells_uint16_fields hspells hop
  exact hfield.elim (· hord) (·.elim (· haddr) (· hcount))

/-- Settles O12: the reply is that of `exec_encu16_returns`, and ORD = 1 is one of the fields that make
the packet illegal. -/
theorem encu16Result : Obligations.Encu16Result := by
  refine ⟨exec_encu16_returns, by decide, fun p hop hfield => ?illegal, rfl, rfl, rfl⟩
  case illegal =>
    have hone : ordField p = 1#1 → ordField p ≠ 0#1 := fun h => by rw [h]; decide
    exact decode_uint16_eq_none (.inl hop) (hfield.imp_left hone)

/-- Settles O13: 0xFFFF is one of the words `exec_decu16_returns` speaks of, and its zero extension is
65535. -/
theorem decu16Result : Obligations.Decu16Result := by
  refine ⟨fun s reg => exec_decu16_returns, by decide, fun p hop => decode_uint16_eq_none (.inr hop),
    fun s hwin => ?unsigned⟩
  case unsigned =>
    have hvalue : (0xFFFF#16).setWidth 64 = 65535#64 := by decide
    exact hvalue ▸ exec_decu16_returns hwin

end Sys2Proof.Machine

namespace Sys2Proof.Machine

/-! ## The counter serializer (43_counter_serializer.md): counters(k) -/

/-- Settles O25: the length is `counters_length` and each element is `counters_getD_toNat`, where the
residue fits a word, so that the sum is the unbounded one. -/
theorem countersFormula : Obligations.CountersFormula :=
  fun k => ⟨counters_length k, fun _ hi => counters_getD_toNat k hi⟩

end Sys2Proof.Machine

/-! SUPPORT and proofs for the statements about the unpacker (44_unpacker.md): the slice that is too short
(R92, R94). -/

namespace Sys2Proof.Machine

variable {s t : State}

/-- An operation that ends in an error shows no result on the issuing port (R112). -/
theorem endsIn_replyAt_ne_ok {o : Host.Outcome State Fault Refusal} {e : Error} (h : endsIn o s e)
    (ht : o = .next t) (r : Result) : t.replyAt s.bus.port ≠ .ok r := by
  obtain ⟨u, hu, hreply, -⟩ := h
  obtain rfl : u = t := Host.Outcome.next.inj (hu.symm.trans ht)
  rw [hreply]
  nofun

/-- The count alone decides: the error does not depend on WIN or on the order (R92). -/
theorem exec_unpk_short_endsIn {o : Order} {count : Nat} (h : count < 38) :
    endsIn (exec (.unpk o count) s) s (.insufficientData count) := by
  rw [exec_unpk_short h]
  exact raise_endsIn s _

/-- Settles O16: a short slice ends in the error, and the error leaves no result to show, so fields mean
that the slice was not short. -/
theorem unpkShortSliceFails : Obligations.UnpkShortSliceFails := by
  refine ⟨fun o count s => exec_unpk_short_endsIn, fun o count s t f ht hfields => ?fieldsNeedFullSlice,
    fun o s => exec_unpk_short_endsIn (by decide)⟩
  case fieldsNeedFullSlice =>
    refine Nat.le_of_not_lt fun hshort => ?_
    exact endsIn_replyAt_ne_ok (exec_unpk_short_endsIn hshort) ht _ hfields

end Sys2Proof.Machine

/-! SUPPORT and proofs for the statements about the exceptions (60_exceptions.md): the errors the block
itself can end in (R109, R116), the transport's error that passes it by (R108), and what a command on a
reader port leaves as it was (R124). -/

namespace Sys2Proof.Machine

variable {s : State} {p : Port}

/-! ### The block's own errors -/

/-- The three of the five error kinds that an operation of the block ends in (R109, R116). -/
inductive Error.OfBlock : Error → Prop where
  | outOfRange (start count : Nat) : OfBlock (.outOfRange start count)
  | insufficientData (received : Nat) : OfBlock (.insufficientData received)
  | illegalCommand (packet : Packet) : OfBlock (.illegalCommand packet)

/-- An error that port `p` shows in the next state of the outcome, if it has one, is the block's own. -/
def ShowsBlockErrors (p : Port) (o : Host.Outcome State Fault Refusal) : Prop :=
  ∀ t e, o = .next t → t.replyAt p = .failed e → e.OfBlock

theorem showsBlockErrors_fault (p : Port) (f : Fault) : ShowsBlockErrors p (.fault f) := nofun

/-- A result is not an error. -/
theorem showsBlockErrors_finish (hp : s.bus.port = p) (r : Result) :
    ShowsBlockErrors p (finish r s) := by
  intro t e ht he
  obtain ⟨u, hu, hreply, -⟩ := finish_returns s r
  obtain rfl : u = t := Host.Outcome.next.inj (hu.symm.trans ht)
  rw [← hp, hreply] at he
  cases he

/-- A raised error is the one its port shows. -/
theorem showsBlockErrors_raise (hp : s.bus.port = p) {e : Error} (he : e.OfBlock) :
    ShowsBlockErrors p (raise e s) := by
  intro t e' ht he'
  obtain ⟨u, hu, hreply, -⟩ := raise_endsIn s e
  obtain rfl : u = t := Host.Outcome.next.inj (hu.symm.trans ht)
  rw [← hp, hreply] at he'
  cases he'
  exact he

theorem showsBlockErrors_onWriterPort (hp : s.bus.port = p)
    {k : Host.Outcome State Fault Refusal} (hk : ShowsBlockErrors p k) :
    ShowsBlockErrors p (onWriterPort s k) := by
  by_cases hw : s.bus.port = .writer
  · rwa [onWriterPort_writer hw]
  · rw [onWriterPort_other hw]
    exact showsBlockErrors_raise hp (.illegalCommand _)

theorem showsBlockErrors_onBankPort (hp : s.bus.port = p)
    {k : Host.Outcome State Fault Refusal} (hk : ShowsBlockErrors p k) :
    ShowsBlockErrors p (onBankPort s k) := by
  by_cases hc : ∃ c, s.bus.port = .client c
  · obtain ⟨c, hc⟩ := hc
    rw [onBankPort_client hc]
    exact showsBlockErrors_raise hp (.illegalCommand _)
  · rwa [onBankPort_block (not_exists.1 hc)]

theorem showsBlockErrors_inSpan (hp : s.bus.port = p) {start count : Nat}
    {k : Host.Outcome State Fault Refusal} (hk : ShowsBlockErrors p k) :
    ShowsBlockErrors p (inSpan start count s k) := by
  by_cases hn : start + count ≤ s.cfg.n
  · rwa [inSpan_le hn]
  · rw [inSpan_gt (Nat.lt_of_not_le hn)]
    exact showsBlockErrors_raise hp (.outOfRange _ _)

/-- Words of the wrong number stop the machine, which shows nothing. -/
theorem showsBlockErrors_withWords {n : Nat} {k : List Word → Host.Outcome State Fault Refusal}
    (hk : ∀ ws, ShowsBlockErrors p (k ws)) : ShowsBlockErrors p (withWords n s k) := by
  by_cases hw : s.bus.win.length = n
  · rw [withWords_length hw]
    exact hk _
  · rw [withWords_ne hw]
    exact showsBlockErrors_fault _ _

/-- R116 for an operation: its role check, its bound check and its slice check raise the three errors
of the block, and nothing else in it raises. -/
theorem exec_showsBlockErrors (i : Instr) (hp : s.bus.port = p) :
    ShowsBlockErrors p (exec i s) := by
  cases i with
  | encf32 o => exact showsBlockErrors_finish hp _
  | decf32 o =>
    simp only [exec, execDecf32]
    split
    · exact showsBlockErrors_finish hp _
    · exact showsBlockErrors_fault _ _
  | encf64 o => exact showsBlockErrors_finish hp _
  | decf64 o =>
    simp only [exec, execDecf64]
    split
    · exact showsBlockErrors_finish hp _
    · exact showsBlockErrors_fault _ _
  | encu16 => exact showsBlockErrors_finish hp _
  | decu16 =>
    simp only [exec, execDecu16]
    split
    · exact showsBlockErrors_finish hp _
    · exact showsBlockErrors_fault _ _
  | unpk o count =>
    by_cases hc : count < 38
    · rw [exec_unpk_short hc]
      exact showsBlockErrors_raise hp (.insufficientData _)
    · rw [exec_unpk_full (Nat.le_of_not_lt hc)]
      exact showsBlockErrors_withWords fun _ => showsBlockErrors_finish hp _
  | wrb start count =>
    exact showsBlockErrors_onWriterPort hp <| showsBlockErrors_inSpan hp <|
      showsBlockErrors_withWords fun _ => showsBlockErrors_finish (by rwa [State.withBank_bus]) _
  | rdr start count =>
    exact showsBlockErrors_onBankPort hp <| showsBlockErrors_inSpan hp <|
      showsBlockErrors_finish hp _
  | ctrpub =>
    exact showsBlockErrors_onWriterPort hp <| showsBlockErrors_inSpan hp <|
      showsBlockErrors_finish (by rwa [State.withK_bus, State.withBank_bus]) _

/-- R116 for a presented command, legal or not. -/
theorem issue_showsBlockErrors (q : Issue) (s : State) : ShowsBlockErrors q.port (issue q s) := by
  unfold issue
  split
  · exact showsBlockErrors_raise rfl (.illegalCommand _)
  · exact exec_showsBlockErrors _ rfl

/-! ### The transport's error -/

/-- The transport's error goes to the waiting client verbatim, past the block (R108). -/
theorem clientDeliver_error {c : Nat} (cause : Nat) (h : (s.client c).request ≠ none) :
    clientDeliver c (.error cause) s =
      .next ((answered c s).withReply (.client c) (.failed (.transportError cause))) := by
  obtain ⟨answer, hr⟩ := Option.ne_none_iff_exists'.1 h
  simp only [clientDeliver, hr]

/-- Settles O29: neither reserved error is one of the block's own, and the delivery of the transport's
error leaves the bus alone. -/
theorem blockNeverRaisesReservedErrors : Obligations.BlockNeverRaisesReservedErrors := by
  refine ⟨fun q s t ht => ?block, fun c cause s hr => ?transport⟩
  case block =>
    have own : ∀ e, t.replyAt q.port = .failed e → e.OfBlock :=
      fun e => issue_showsBlockErrors q s t e ht
    exact ⟨fun h => (nomatch own _ h), fun _ h => (nomatch own _ h)⟩
  case transport =>
    refine ⟨_, clientDeliver_error cause hr, State.withReply_replyAt_same _ _ _, ?_⟩
    rw [State.withReply_bus, answered, State.withClient_bus]

/-! ### A command on a reader port -/

/-- The reply of a reader port stands apart from all that the writer side has. -/
theorem State.writerSame_withReply_reader (s : State) (q : Issue) (j : Nat) (r : Reply) :
    s.writerSame ((s.withBus q).withReply (.reader j) r) :=
  ⟨rfl, rfl, rfl, rfl, rfl, rfl, rfl, rfl, rfl⟩

theorem State.withReply_reader_client (s : State) (j : Nat) (r : Reply) (c : Nat) :
    (s.withReply (.reader j) r).client c = s.client c := rfl

/-- Settles O35: off the writer port a command does nothing but reply (`issue_off_writer`), and this
reply is on a reader port. -/
theorem readerChangesNothingObservable : Obligations.ReaderChangesNothingObservable := by
  intro j q s t hq h
  have off : q.port ≠ .writer := by
    rw [hq]
    nofun
  obtain ⟨r, rfl⟩ := issue_off_writer off h
  rw [hq]
  refine ⟨s.writerSame_withReply_reader q j r, fun c => ?client, fun p hp => ?otherPort⟩
  case client => rw [State.withReply_reader_client, State.withBus_client]
  case otherPort => rw [State.withReply_replyAt, if_neg hp, State.withBus_replyAt]

end Sys2Proof.Machine

/-! SUPPORT and proofs for the statements about the encoding (30_encoding.md): the decoder and
`Spells` are one relation (R57, R59), and a row of the match/mask table fixes the fields of a packet
(R58). -/

namespace Sys2Proof

variable {p : Packet} {i : Instr}

/-! ### The decoder, both ways -/

/-- The converse of `decode_spells`: what a packet with RSV zero spells is what it decodes to. -/
theorem decode_of_spells (hr : rsvField p = 0#3) (h : Spells p i) : decode p = some i := by
  cases h with
  | encf32 op a c => simp [decode, whenZero, hr, op, a, c]
  | decf32 op a c => simp [decode, whenZero, hr, op, a, c]
  | encf64 op a c => simp [decode, whenZero, hr, op, a, c]
  | decf64 op a c => simp [decode, whenZero, hr, op, a, c]
  | encu16 op o a c => simp [decode, whenZero, hr, op, o, a, c]
  | decu16 op o a c => simp [decode, whenZero, hr, op, o, a, c]
  | unpk op a => simp [decode, whenZero, hr, op, a]
  | wrb op o => simp [decode, whenZero, hr, op, o]
  | rdr op o => simp [decode, whenZero, hr, op, o]
  | ctrpub op o a c => simp [decode, whenZero, hr, op, o, a, c]

theorem rsvField_encode (i : Instr) : rsvField (encode i) = 0#3 := by
  cases i <;> exact rsvField_assemble _ _ _ _

/-- A field that holds `BitVec.ofNat 16 x` reads as `x` when `x` fits it (R55). -/
theorem toNat_ofNat_of_fits16 {x : Nat} (h : fits16 x = true) : (BitVec.ofNat 16 x).toNat = x :=
  Nat.mod_eq_of_lt (Nat.lt_succ_of_le (of_decide_eq_true h))

theorem fits16_toNat (w : Word) : fits16 w.toNat = true :=
  decide_eq_true (Nat.le_of_lt_succ w.isLt)

/-- The packet of a well-formed operation spells it (R65). -/
theorem encode_spells (h : i.wf = true) : Spells (encode i) i := by
  cases i with
  | encf32 o =>
    have hs := Spells.encf32 (p := encode (.encf32 o)) (opField_assemble _ _ _ _)
      (addrField_assemble _ _ _ _) (countField_assemble _ _ _ _)
    rwa [encode, ordField_assemble, orderOfBit_bitOfOrder] at hs
  | decf32 o =>
    have hs := Spells.decf32 (p := encode (.decf32 o)) (opField_assemble _ _ _ _)
      (addrField_assemble _ _ _ _) (countField_assemble _ _ _ _)
    rwa [encode, ordField_assemble, orderOfBit_bitOfOrder] at hs
  | encf64 o =>
    have hs := Spells.encf64 (p := encode (.encf64 o)) (opField_assemble _ _ _ _)
      (addrField_assemble _ _ _ _) (countField_assemble _ _ _ _)
    rwa [encode, ordField_assemble, orderOfBit_bitOfOrder] at hs
  | decf64 o =>
    have hs := Spells.decf64 (p := encode (.decf64 o)) (opField_assemble _ _ _ _)
      (addrField_assemble _ _ _ _) (countField_assemble _ _ _ _)
    rwa [encode, ordField_assemble, orderOfBit_bitOfOrder] at hs
  | encu16 =>
    exact .encu16 (opField_assemble _ _ _ _) (ordField_assemble _ _ _ _)
      (addrField_assemble _ _ _ _) (countField_assemble _ _ _ _)
  | decu16 =>
    exact .decu16 (opField_assemble _ _ _ _) (ordField_assemble _ _ _ _)
      (addrField_assemble _ _ _ _) (countField_assemble _ _ _ _)
  | unpk o count =>
    have hs := Spells.unpk (p := encode (.unpk o count)) (opField_assemble _ _ _ _)
      (addrField_assemble _ _ _ _)
    rwa [encode, ordField_assemble, orderOfBit_bitOfOrder, countField_assemble,
      toNat_ofNat_of_fits16 h] at hs
  | wrb start count =>
    obtain ⟨hstart, hcount⟩ := (Bool.and_eq_true _ _).mp h
    have hs := Spells.wrb (p := encode (.wrb start count)) (opField_assemble _ _ _ _)
      (ordField_assemble _ _ _ _)
    rwa [encode, addrField_assemble, countField_assemble, toNat_ofNat_of_fits16 hstart,
      toNat_ofNat_of_fits16 hcount] at hs
  | rdr start count =>
    obtain ⟨hstart, hcount⟩ := (Bool.and_eq_true _ _).mp h
    have hs := Spells.rdr (p := encode (.rdr start count)) (opField_assemble _ _ _ _)
      (ordField_assemble _ _ _ _)
    rwa [encode, addrField_assemble, countField_assemble, toNat_ofNat_of_fits16 hstart,
      toNat_ofNat_of_fits16 hcount] at hs
  | ctrpub =>
    exact .ctrpub (opField_assemble _ _ _ _) (ordField_assemble _ _ _ _)
      (addrField_assemble _ _ _ _) (countField_assemble _ _ _ _)

/-- Settles O38: the packet of a well-formed operation has RSV zero and spells it, and what a packet
spells it decodes to. -/
theorem decodeOfEncode : Obligations.DecodeOfEncode :=
  fun i h => decode_of_spells (rsvField_encode i) (encode_spells h)

/-- What a packet spells fits the packet's fields. -/
theorem Spells.wf (h : Spells p i) : i.wf = true := by
  cases h with
  | unpk => exact fits16_toNat _
  | wrb => exact (Bool.and_eq_true _ _).mpr ⟨fits16_toNat _, fits16_toNat _⟩
  | rdr => exact (Bool.and_eq_true _ _).mpr ⟨fits16_toNat _, fits16_toNat _⟩
  | _ => rfl

theorem decode_wf (h : decode p = some i) : i.wf = true := (decode_spells h).2.wf

/-- The fields that the spelled operation names are the packet's, and the others are zero (R65). -/
theorem Spells.encode_eq (h : Spells p i) :
    encode i = assemble (opField p) (ordField p) (addrField p) (countField p) := by
  cases h <;> simp only [encode, bitOfOrder_orderOfBit, BitVec.ofNat_toNat, BitVec.setWidth_eq, *]

/-- Settles O39: a packet with RSV zero is assembled from its fields, and so is the packet of the
operation it spells. -/
theorem encodeOfDecode : Obligations.EncodeOfDecode := by
  intro p i h
  obtain ⟨hr, hs⟩ := decode_spells h
  exact ⟨hs.encode_eq.trans (assemble_fields hr), hs.wf⟩

/-! ### The match/mask table -/

/-- R58: what it takes for a packet to be selected, field by field: each field under its part of the
mask is its part of the pattern. -/
theorem selects_fields {r : OpRow} (h : r.selects p = true) :
    opField p &&& opField r.mask = opField r.pattern ∧
      rsvField p &&& rsvField r.mask = rsvField r.pattern ∧
      ordField p &&& ordField r.mask = ordField r.pattern ∧
      addrField p &&& addrField r.mask = addrField r.pattern ∧
      countField p &&& countField r.mask = countField r.pattern := by
  rw [← beq_iff_eq.mp h]
  exact ⟨BitVec.extractLsb'_and.symm, BitVec.extractLsb'_and.symm, BitVec.extractLsb'_and.symm,
    BitVec.extractLsb'_and.symm, BitVec.extractLsb'_and.symm⟩

/-- A field under a mask of ones is the field. -/
theorem eq_of_and_ones {w : Nat} {x m v : BitVec w} (h : x &&& m = v) (hm : m = BitVec.allOnes w) :
    x = v := by
  rw [← h, hm, BitVec.and_allOnes]

/-- A row that selects a packet asks for OP, for RSV zero and for the "fixed 0" fields of one
operation (R57, R58), so the packet spells that operation. -/
theorem selects_spells {r : OpRow} (hr : r ∈ opTable) (h : r.selects p = true) :
    rsvField p = 0#3 ∧ ∃ i, Spells p i ∧ i.mnemonic = r.mnemonic := by
  have reserved : ∀ r ∈ opTable,
      rsvField r.mask = BitVec.allOnes 3 ∧ rsvField r.pattern = 0#3 := by
    decide
  have operation : ∀ r ∈ opTable, opField r.mask = BitVec.allOnes 4 := by decide
  obtain ⟨op, rsv, ord, addr, count⟩ := selects_fields h
  obtain ⟨rsvMask, rsvPattern⟩ := reserved r hr
  replace op := eq_of_and_ones op (operation r hr)
  refine ⟨(eq_of_and_ones rsv rsvMask).trans rsvPattern, ?_⟩
  simp only [opTable, List.mem_cons, List.not_mem_nil, or_false] at hr
  rcases hr with rfl | rfl | rfl | rfl | rfl | rfl | rfl | rfl | rfl | rfl
  · exact ⟨_, .encf32 op (eq_of_and_ones addr rfl)
      (eq_of_and_ones count rfl), rfl⟩
  · exact ⟨_, .decf32 op (eq_of_and_ones addr rfl)
      (eq_of_and_ones count rfl), rfl⟩
  · exact ⟨_, .encf64 op (eq_of_and_ones addr rfl)
      (eq_of_and_ones count rfl), rfl⟩
  · exact ⟨_, .decf64 op (eq_of_and_ones addr rfl)
      (eq_of_and_ones count rfl), rfl⟩
  · exact ⟨_, .encu16 op (eq_of_and_ones ord rfl) (eq_of_and_ones addr rfl)
      (eq_of_and_ones count rfl), rfl⟩
  · exact ⟨_, .decu16 op (eq_of_and_ones ord rfl) (eq_of_and_ones addr rfl)
      (eq_of_and_ones count rfl), rfl⟩
  · exact ⟨_, .unpk op (eq_of_and_ones addr rfl), rfl⟩
  · exact ⟨_, .wrb op (eq_of_and_ones ord rfl), rfl⟩
  · exact ⟨_, .rdr op (eq_of_and_ones ord rfl), rfl⟩
  · exact ⟨_, .ctrpub op (eq_of_and_ones ord rfl) (eq_of_and_ones addr rfl)
      (eq_of_and_ones count rfl), rfl⟩

/-- Every operation has a row of the table with its mnemonic. -/
theorem exists_row_of_mnemonic (i : Instr) : ∃ r ∈ opTable, r.mnemonic = i.mnemonic := by
  cases i <;> simp [opTable, Instr.mnemonic]

/-- The packet of an operation is selected by the row of its mnemonic (R58, R65). -/
theorem selects_encode (i : Instr) : Laws.EncodeSelectsRow.Statement i := by
  cases i with
  | encf32 o => exact Laws.EncodeSelectsRow.encf32 o
  | decf32 o => exact Laws.EncodeSelectsRow.decf32 o
  | encf64 o => exact Laws.EncodeSelectsRow.encf64 o
  | decf64 o => exact Laws.EncodeSelectsRow.decf64 o
  | encu16 => exact Laws.EncodeSelectsRow.encu16
  | decu16 => exact Laws.EncodeSelectsRow.decu16
  | unpk o count => exact Laws.EncodeSelectsRow.unpk o count
  | wrb start count => exact Laws.EncodeSelectsRow.wrb start count
  | rdr start count => exact Laws.EncodeSelectsRow.rdr start count
  | ctrpub => exact Laws.EncodeSelectsRow.ctrpub

/-- Settles O40: a legal packet is the packet of its operation, which the row selects; and a row
that selects a packet makes it spell an operation of that row. -/
theorem decoderAgreesWithTable : Obligations.DecoderAgreesWithTable := by
  intro p
  constructor
  case left =>
    intro i hd
    obtain ⟨r, hr, hm⟩ := exists_row_of_mnemonic i
    obtain ⟨henc, -⟩ := encodeOfDecode p i hd
    exact ⟨r, hr, henc ▸ selects_encode i r hr hm, hm⟩
  case right =>
    intro r hr hsel
    obtain ⟨hrsv, i, hs, hm⟩ := selects_spells hr hsel
    exact ⟨i, decode_of_spells hrsv hs, hm⟩

/-- Settles O37: nine closed packets, each decoded by evaluation. -/
theorem samplePacketsDecode : Obligations.SamplePacketsDecode := by
  unfold Obligations.SamplePacketsDecode
  decide

end Sys2Proof

/-! SUPPORT and proofs for the statements about every step: what it can do on the writer's side, the
state invariant (10_state.md, R132), and the writer host's loop (60_exceptions.md, R118 to R121). -/

namespace Sys2Proof.Machine

variable {s t u : State} {q : Issue}

/-! ### The writer's side -/

/-- A reply off the writer port is nothing the writer's side has. -/
theorem State.writerSame_withReply {p : Port} (hp : p ≠ .writer) (r : Reply) :
    s.writerSame (s.withReply p r) := by
  cases p with
  | writer => exact absurd rfl hp
  | reader j => exact s.writerSame_withReply_reader s.bus j r
  | client c => exact ⟨rfl, rfl, rfl, rfl, rfl, rfl, rfl, rfl, rfl⟩

theorem State.writerSame_withSchedule (es : List Event) : s.writerSame (s.withSchedule es) :=
  ⟨rfl, rfl, rfl, rfl, rfl, rfl, rfl, rfl, rfl⟩

theorem State.writerSame_withBus : s.writerSame (s.withBus q) :=
  ⟨rfl, rfl, rfl, rfl, rfl, rfl, rfl, rfl, rfl⟩

theorem State.writerSame_withClient (c : Nat) (x : Client) : s.writerSame (s.withClient c x) :=
  ⟨rfl, rfl, rfl, rfl, rfl, rfl, rfl, rfl, rfl⟩

theorem State.writerSame.refl (s : State) : s.writerSame s := s.writerSame_withSchedule s.schedule

theorem State.writerSame.trans (h : s.writerSame t) (h' : t.writerSame u) : s.writerSame u := by
  obtain ⟨cfg, bank, k, wReply, loop, stop, startTime, now, phase⟩ := h
  obtain ⟨cfg', bank', k', wReply', loop', stop', startTime', now', phase'⟩ := h'
  exact ⟨cfg'.trans cfg, bank'.trans bank, k'.trans k, wReply'.trans wReply, loop'.trans loop,
    stop'.trans stop, startTime'.trans startTime, now'.trans now, phase'.trans phase⟩

/-- R124: a command off the writer port leaves the writer's side as it was. -/
theorem issue_writerSame (hp : q.port ≠ .writer) (h : issue q s = .next t) : s.writerSame t := by
  obtain ⟨r, rfl⟩ := issue_off_writer hp h
  exact s.writerSame_withBus.trans (State.writerSame_withReply hp r)

theorem serverRead_writerSame {j : Nat} {start count : Word}
    (h : serverRead j start count s = .next t) : s.writerSame t :=
  issue_writerSame (by nofun) h

/-! ### What W does after a command of its tick -/

/-- The three ways W goes on from a command of its tick, by the status its port shows (R98, R119,
R120). -/
inductive TickStepEnd (elapsed : Seconds) (rest : List TickStep) (s : State) : State → Prop where
  | done (ok : s.wReply.status = some .ok) (hr : rest = []) : TickStepEnd elapsed rest s (endTick s)
  | more (ok : s.wReply.status = some .ok) (hr : rest ≠ []) :
      TickStepEnd elapsed rest s (s.withPhase (.ticking elapsed rest s.wReply.wordsOf))
  | failed (h : s.wReply.status ≠ some .ok) : TickStepEnd elapsed rest s (enterBackoff s)

theorem afterTickStep_cases {elapsed : Seconds} {rest : List TickStep}
    (h : afterTickStep elapsed rest s = t) : TickStepEnd elapsed rest s t := by
  subst h
  unfold afterTickStep
  split
  · split
    · exact .done ‹_› rfl
    · exact .more ‹_› (List.cons_ne_nil _ _)
  · exact .failed ‹_›

/-! ### A step, seen from the writer's side -/

/-- What a step can be for the writer's side: none of its business, or one of the writer host's own
moves, a command on its port, a reading of the clock or the stop signal. -/
inductive WriterStep (s : State) : State → Prop where
  | away (t : State) (h : s.writerSame t) : WriterStep s t
  | command (q : Issue) (es : List Event) (t : State) (hs : s.schedule = .command q :: es)
      (hq : q.port = .writer) (h : issue q (s.withSchedule es) = .next t) : WriterStep s t
  | starts (es : List Event) (hp : s.phase = .starting) :
      WriterStep s (startLoop (s.withSchedule es))
  | exits (es : List Event) (hp : s.phase = .boundary) (h : s.stop = true) :
      WriterStep s ((s.withSchedule es).withPhase .exited)
  | begins (p : Patterns) (es : List Event) (hp : s.phase = .boundary) :
      WriterStep s (beginTick p (s.withSchedule es))
  | wakes (es : List Event) (w : Seconds) (hp : s.phase = .sleeping w) (h : w.value ≤ s.now.value) :
      WriterStep s (wake (s.withSchedule es))
  | ends (es : List Event) (elapsed : Seconds) (words : List Word)
      (hp : s.phase = .ticking elapsed [] words) : WriterStep s (endTick (s.withSchedule es))
  | ticks (es : List Event) (elapsed : Seconds) (x : TickStep) (rest : List TickStep)
      (words : List Word) (u : State) (hp : s.phase = .ticking elapsed (x :: rest) words)
      (h : issue (x.issue s.cfg.order words) (s.withSchedule es) = .next u) :
      WriterStep s (afterTickStep elapsed rest u)
  | clock (x : Seconds) (es : List Event) (h : s.now.value < x.value) :
      WriterStep s ((s.withSchedule es).withNow x)
  | stopSignal (on : Bool) (es : List Event) : WriterStep s ((s.withSchedule es).withStop on)

/-- Every step is one of them: what readers and clients do is none of the writer's business
(R124). -/
theorem writerStep_of_step (ht : step s = .next t) : WriterStep s t := by
  cases step_cases ht with
  | waits => exact .away _ (.refl s)
  | command q es _ hs h =>
    by_cases hq : q.port = .writer
    · exact .command q es _ hs hq h
    · exact .away _ ((s.writerSame_withSchedule es).trans (issue_writerSame hq h))
  | inactive p es => exact .away _ (s.writerSame_withSchedule es)
  | starts p es _ hp => exact .starts es hp
  | exits p es _ hp h => exact .exits es hp h
  | begins p es _ hp => exact .begins p es hp
  | wakes p es w _ hp h => exact .wakes es w hp h
  | ends p es elapsed words _ hp => exact .ends es elapsed words hp
  | ticks p es elapsed x rest words u _ hp h => exact .ticks es elapsed x rest words u hp h
  | serves j start count es _ _ h =>
    exact .away _ ((s.writerSame_withSchedule es).trans (serverRead_writerSame h))
  | busy c j es => exact .away _ (s.writerSame_withSchedule es)
  | requests c j es u _ _ h =>
    exact .away _ (((s.writerSame_withSchedule es).trans (serverRead_writerSame h)).trans
      (u.writerSame_withClient c _))
  | unasked c d es => exact .away _ (s.writerSame_withSchedule es)
  | passesError c cause es =>
    exact .away _ (((s.writerSame_withSchedule es).trans (State.writerSame_withClient c _)).trans
      (State.writerSame_withReply (by nofun) _))
  | delivers c m es answer _ _ _ h =>
    exact .away _ (((s.writerSame_withSchedule es).trans (State.writerSame_withClient c _)).trans
      (issue_writerSame (by nofun) h))
  | clock x es =>
    split
    · exact .clock x es ((Seconds.before_iff _ _).mp ‹_›)
    · exact .away _ (s.writerSame_withSchedule es)
  | stopSignal on es => exact .stopSignal on es

/-! ### BANK, K and CFG -/

/-- What a command writes depends on BANK, K and CFG alone. -/
theorem Wrote.congr {m : Memory} {k : BitVec 6} {r : Reply} (h : Wrote q t m k r)
    (hs : s.writerSame t) : Wrote q s m k r := by
  obtain ⟨cfg, bank, hk, -⟩ := hs
  cases h with
  | nothing => exact hk ▸ bank ▸ .nothing r
  | batch start hp hd hn => exact hk ▸ bank ▸ .batch start hp hd (cfg ▸ hn)
  | tickIndex hp hd hn => exact hk ▸ bank ▸ .tickIndex hp hd (cfg ▸ hn)

theorem issue_wrote_bus (h : issue q s = .next t) : ∃ r, Wrote t.bus s t.bank t.k r := by
  obtain ⟨m, k, r, -, hw, rfl⟩ := issue_wrote h
  exact ⟨r, by simpa using hw⟩

/-- Whatever a step does to BANK and K, it is what the command now on the bus writes. -/
theorem step_wrote (ht : step s = .next t) : ∃ r, Wrote t.bus s t.bank t.k r := by
  cases writerStep_of_step ht with
  | away _ h =>
    obtain ⟨-, bank, k, -⟩ := h
    exact ⟨.idle, bank ▸ k ▸ .nothing _⟩
  | command q es _ _ _ h =>
    obtain ⟨r, hw⟩ := issue_wrote_bus h
    exact ⟨r, hw.congr (s.writerSame_withSchedule es)⟩
  | ticks es elapsed x rest words u _ h =>
    obtain ⟨r, hw⟩ := issue_wrote_bus h
    rw [afterTickStep_bus, afterTickStep_bank, afterTickStep_k]
    exact ⟨r, hw.congr (s.writerSame_withSchedule es)⟩
  | starts => exact ⟨.idle, .nothing _⟩
  | exits => exact ⟨.idle, .nothing _⟩
  | begins => exact ⟨.idle, .nothing _⟩
  | wakes => exact ⟨.idle, .nothing _⟩
  | ends => exact ⟨.idle, .nothing _⟩
  | clock => exact ⟨.idle, .nothing _⟩
  | stopSignal => exact ⟨.idle, .nothing _⟩

/-- No step changes CFG (R22). -/
theorem step_cfg (ht : step s = .next t) : t.cfg = s.cfg := by
  cases writerStep_of_step ht with
  | away _ h => exact h.1
  | command q es _ _ _ h => exact (issue_rest h).1
  | ticks es elapsed x rest words u _ h => exact (afterTickStep_cfg _ _ _).trans (issue_rest h).1
  | _ => rfl

/-- Settles O44: what a step writes is what the command on the bus writes, and only WRB and CTRPUB
on the writer port write. -/
theorem onlyWriterCommandsChangeBank : Obligations.OnlyWriterCommandsChangeBank := by
  intro s t ht
  obtain ⟨r, hw⟩ := step_wrote ht
  refine ⟨step_cfg ht, ?_⟩
  generalize t.bank = m at hw ⊢
  generalize t.k = k at hw ⊢
  cases hw with
  | nothing => exact ⟨fun hne => absurd rfl hne, fun hne => absurd rfl hne⟩
  | batch start hp hd =>
    exact ⟨fun _ => ⟨hp, _, hd, .inr ⟨_, _, rfl⟩⟩, fun hne => absurd rfl hne⟩
  | tickIndex hp hd => exact ⟨fun _ => ⟨hp, _, hd, .inl rfl⟩, fun _ => ⟨hp, hd⟩⟩

/-! ### The parts of the state invariant -/

/-- BANK and K as the invariant has them: canonical, within the `n` words, and 0..50 (R10, R19). -/
def BankInv (n : Nat) (m : Memory) (k : BitVec 6) : Prop :=
  m.wf ∧ (∀ e ∈ m, e.1 < n) ∧ k.toNat ≤ 50

theorem Wrote.bankInv {m : Memory} {k : BitVec 6} {r : Reply} (hw : Wrote q s m k r)
    (h : BankInv s.cfg.n s.bank s.k) : BankInv s.cfg.n m k := by
  obtain ⟨wf, below, hk⟩ := h
  cases hw with
  | nothing => exact ⟨wf, below, hk⟩
  | batch start _ _ hn => exact ⟨memWrite_wf _ _ wf, memWrite_below below hn, hk⟩
  | tickIndex _ _ hn =>
    refine ⟨memWrite_wf _ _ wf, memWrite_below below (by simpa using hn), ?_⟩
    rw [nextTickIndex_toNat]
    exact Nat.le_of_lt_succ (Nat.mod_lt _ (by decide))

/-- The maps of reader ports and of clients are canonical. -/
def PortsWf (s : State) : Prop :=
  Sparse.wf Reply.idle s.readers ∧ Sparse.wf Client.initial s.clients

theorem PortsWf.withClient (h : PortsWf s) (c : Nat) (x : Client) : PortsWf (s.withClient c x) :=
  ⟨h.1, Sparse.write_wf c x h.2⟩

theorem PortsWf.withReply (h : PortsWf s) (p : Port) (r : Reply) : PortsWf (s.withReply p r) := by
  cases p with
  | writer => exact h
  | reader j => exact ⟨Sparse.write_wf j r h.1, h.2⟩
  | client c => exact h.withClient c _

theorem PortsWf.issue (h : PortsWf s) (ht : issue q s = .next t) : PortsWf t := by
  obtain ⟨m, k, r, -, -, rfl⟩ := issue_wrote ht
  exact PortsWf.withReply (s := ((s.withBus q).withBank m).withK k) h _ _

/-- W's next phase and LOOP do not concern the ports. -/
theorem PortsWf.afterTickStep (h : PortsWf s) (elapsed : Seconds) (rest : List TickStep) :
    PortsWf (afterTickStep elapsed rest s) := by
  obtain ⟨l, p, heq⟩ := afterTickStep_shape elapsed rest s
  exact heq ▸ h

theorem PortsWf.step (h : PortsWf s) (ht : step s = .next t) : PortsWf t := by
  have rest (es : List Event) : PortsWf (s.withSchedule es) := h
  cases step_cases ht with
  | command q es _ _ ht => exact (rest es).issue ht
  | ticks p es elapsed x todo words u _ _ hu => exact ((rest es).issue hu).afterTickStep _ _
  | serves j start count es _ _ ht => exact (rest es).issue ht
  | requests c j es u _ _ hu => exact ((rest es).issue hu).withClient c _
  | passesError c cause es => exact ((rest es).withClient c _).withReply _ _
  | delivers c m es answer _ _ _ ht => exact ((rest es).withClient c _).issue ht
  | clock x es => split <;> exact h
  | _ => exact h

/-- LOOP is ErrorBackoff only while W sleeps (R120), elapsed time is not negative and no tick reads
a time to come (R24). -/
def LoopInv (loop : Loop) (phase : Phase) (startTime now : Seconds) : Prop :=
  (loop = .errorBackoff → phase.isSleeping = true) ∧ startTime.value ≤ now.value ∧
    ∀ t ∈ phase.tickTime, 0 ≤ t.value ∧ t.value ≤ now.value - startTime.value

/-- Where no tick is in progress, nothing is asked of its time. -/
theorem LoopInv.of_tickTime_none {loop : Loop} {phase : Phase} {startTime now : Seconds}
    (hl : loop = .errorBackoff → phase.isSleeping = true) (hn : startTime.value ≤ now.value)
    (hp : phase.tickTime = none) : LoopInv loop phase startTime now :=
  ⟨hl, hn, fun t ht => by simp [hp] at ht⟩

/-- W is in Running wherever it does not sleep. -/
theorem LoopInv.running {loop : Loop} {phase : Phase} {startTime now : Seconds}
    (h : LoopInv loop phase startTime now) (hp : phase.isSleeping = false) : loop = .running := by
  cases loop with
  | running => rfl
  | errorBackoff => exact absurd (h.1 rfl) (by simp [hp])

theorem LoopInv.step (hi : LoopInv s.loop s.phase s.startTime s.now) (ht : step s = .next t) :
    LoopInv t.loop t.phase t.startTime t.now := by
  obtain ⟨-, elapsed, hticking⟩ := id hi
  have awake (hp : s.phase.isSleeping = false) {b : Bool} : s.loop = .errorBackoff → b = true := by
    rw [hi.running hp]
    nofun
  cases writerStep_of_step ht with
  | away _ h =>
    obtain ⟨-, -, -, -, loop, -, startTime, now, phase⟩ := h
    rwa [loop, phase, startTime, now]
  | command q es _ _ _ h =>
    obtain ⟨-, -, loop, -, startTime, now, phase, -⟩ := issue_rest h
    rwa [loop, phase, startTime, now]
  | starts es hp => exact .of_tickTime_none (awake (by rw [hp]; rfl)) le_rfl rfl
  | exits es hp => exact .of_tickTime_none (awake (by rw [hp]; rfl)) elapsed rfl
  | begins p es hp =>
    refine ⟨awake (by rw [hp]; rfl), elapsed, fun t ht => ?_⟩
    obtain rfl : s.now.sub s.startTime = t := Option.some.inj ht
    rw [Seconds.sub_value]
    exact ⟨sub_nonneg.mpr elapsed, le_rfl⟩
  | wakes es w hp => exact .of_tickTime_none nofun elapsed rfl
  | ends es tickTime words hp => exact .of_tickTime_none (fun _ => rfl) elapsed rfl
  | ticks es tickTime x rest words u hp h =>
    obtain ⟨-, -, loop, -, startTime, now, -, -⟩ := issue_rest h
    have hnow : u.startTime.value ≤ u.now.value := by rwa [startTime, now]
    generalize hv : afterTickStep tickTime rest u = v
    cases afterTickStep_cases hv with
    | done => exact .of_tickTime_none (fun _ => rfl) hnow rfl
    | more =>
      refine ⟨loop ▸ awake (by rw [hp]; rfl), hnow, fun t ht => ?_⟩
      rw [State.withPhase_now, State.withPhase_startTime, startTime, now]
      exact hticking t (by rw [hp]; exact ht)
    | failed => exact .of_tickTime_none (fun _ => rfl) hnow rfl
  | clock x es hx =>
    refine ⟨hi.1, elapsed.trans hx.le, fun t ht => ?_⟩
    obtain ⟨hpos, hle⟩ := hticking t ht
    exact ⟨hpos, hle.trans (sub_le_sub_right hx.le _)⟩
  | stopSignal => exact hi

/-- The parts make the whole. -/
theorem inv_iff : Inv s ↔ s.cfg.wf ∧ BankInv s.cfg.n s.bank s.k ∧ PortsWf s ∧
    LoopInv s.loop s.phase s.startTime s.now := by
  unfold BankInv PortsWf LoopInv
  tauto

/-- Settles O46: CFG stays, what is written keeps BANK and K in bounds, replies keep the maps
canonical, and the writer host's moves keep the rest. -/
theorem stepKeepsInv : Obligations.StepKeepsInv := by
  intro s t hi h
  obtain ⟨cfg, bank, ports, loop⟩ := inv_iff.mp hi
  obtain ⟨r, hw⟩ := step_wrote h
  refine inv_iff.mpr ⟨?_, ?_, ports.step h, loop.step h⟩
  · rwa [step_cfg h]
  · rw [step_cfg h]
    exact hw.bankInv bank

/-- Settles O45: after reset BANK and the maps are empty and no time has passed. -/
theorem invHoldsAtReset : Obligations.InvHoldsAtReset := by
  have hold : ∀ c : Cfg, c.wf → Inv (State.resetWith c) := fun c hc =>
    inv_iff.mpr ⟨hc, ⟨⟨.nil, nofun⟩, nofun, Nat.zero_le 50⟩, ⟨⟨.nil, nofun⟩, .nil, nofun⟩,
      .of_tickTime_none nofun le_rfl rfl⟩
  exact ⟨hold Cfg.default (by simp [Cfg.wf, Cfg.default]), hold⟩

/-! ### The writer host's loop -/

/-- Settles O54: of the moves of W only the one at a boundary under STOP ends in Exited, and W has
no move from there. -/
theorem writerExitsOnlyOnStopAtBoundary : Obligations.WriterExitsOnlyOnStopAtBoundary := by
  intro s t ht
  cases writerStep_of_step ht with
  | away _ h =>
    obtain ⟨-, -, -, -, -, -, -, -, phase⟩ := h
    rw [phase]
    exact ⟨.inl, id⟩
  | command q es _ _ _ h =>
    obtain ⟨-, -, -, -, -, -, phase, -⟩ := issue_rest h
    rw [phase]
    exact ⟨.inl, id⟩
  | starts es hp => exact ⟨nofun, fun he => nomatch hp.symm.trans he⟩
  | exits es hp hstop => exact ⟨fun _ => .inr ⟨hp, hstop⟩, fun _ => rfl⟩
  | begins p es hp => exact ⟨nofun, fun he => nomatch hp.symm.trans he⟩
  | wakes es w hp => exact ⟨nofun, fun he => nomatch hp.symm.trans he⟩
  | ends es elapsed words hp => exact ⟨nofun, fun he => nomatch hp.symm.trans he⟩
  | ticks es elapsed x rest words u hp h =>
    refine ⟨fun he => ?_, fun he => nomatch hp.symm.trans he⟩
    generalize hv : afterTickStep elapsed rest u = v at he
    cases afterTickStep_cases hv <;> cases he
  | clock => exact ⟨.inl, id⟩
  | stopSignal => exact ⟨.inl, id⟩

/-- A presented command on the writer port that does not end in OK ends in an error and has written
nothing (R113). -/
theorem issue_failed (hq : q.port = .writer) (h : issue q s = .next t)
    (hne : t.wReply.status ≠ some .ok) :
    (∃ e, t.wReply = .failed e) ∧ t.bank = s.bank ∧ t.k = s.k := by
  obtain ⟨m, k, r, hidle, hw, rfl⟩ := issue_wrote h
  rw [hq, State.withReply_writer_wReply] at hne
  rw [hq, State.withReply_writer_wReply]
  cases r with
  | idle => exact absurd rfl hidle
  | ok r => exact absurd rfl hne
  | failed e =>
    cases hw with
    | nothing => exact ⟨⟨e, rfl⟩, rfl, rfl⟩

@[simp] theorem TickStep.issue_port (o : Order) (words : List Word) (x : TickStep) :
    (x.issue o words).port = .writer := by cases x <;> rfl

/-- Settles O55: of the moves of W only the one after a failed command enters ErrorBackoff, and only
waking returns to Running. -/
theorem errorBackoffEntryAndReturn : Obligations.ErrorBackoffEntryAndReturn := by
  intro s t ht
  have unchanged {l : Loop} (hl : l = s.loop) {P Q : Prop} :
      (s.loop = .running → l = .errorBackoff → P) ∧
        (s.loop = .errorBackoff → l = .running → Q) := by
    subst hl
    exact ⟨fun hr he => (nomatch hr.symm.trans he), fun he hr => (nomatch he.symm.trans hr)⟩
  cases writerStep_of_step ht with
  | away _ h =>
    obtain ⟨-, -, -, -, loop, -⟩ := h
    exact unchanged loop
  | command q es _ _ _ h =>
    obtain ⟨-, -, loop, -⟩ := issue_rest h
    exact unchanged loop
  | wakes es w hp hw => exact ⟨fun _ => nofun, fun _ _ => ⟨w, hp, hw, rfl⟩⟩
  | ticks es elapsed x rest words u hp h =>
    obtain ⟨cfg, -, loop, -, -, now, -⟩ := issue_rest h
    have wakeAt : (u.now.add u.cfg.backoffS).value = s.now.value + s.cfg.backoffS.value := by
      rw [Seconds.add_value, now, cfg]
      rfl
    generalize hv : afterTickStep elapsed rest u = v
    cases afterTickStep_cases hv with
    | done => exact unchanged loop
    | more => exact unchanged loop
    | failed hne =>
      obtain ⟨error, bank, k⟩ := issue_failed (TickStep.issue_port _ _ _) h hne
      exact ⟨fun _ _ => ⟨⟨_, _, _, hp⟩, error, bank, k, _, rfl, wakeAt⟩, fun _ => nofun⟩
  | _ => exact unchanged rfl

/-- Settles O53: the cases of `writerTurn`, with the comparisons and the difference of times read as
those of the real numbers. -/
theorem writerLoopBetweenTicks : Obligations.WriterLoopBetweenTicks := by
  intro s p
  refine ⟨fun hp => ?starting, fun hp hstop => ?exits, fun hp hstop => ?begins,
    fun w hp hw => ?asleep, fun w hp hw => ?wakes, fun hp => ?exited⟩
  case starting => simp only [writerTurn, hp, startLoop]
  case exits => simp only [writerTurn, hp, hstop, if_true]
  case begins =>
    refine ⟨beginTick p s, s.now.sub s.startTime, ?_, rfl, Seconds.sub_value _ _, rfl, rfl⟩
    simp only [writerTurn, hp, hstop, Bool.false_eq_true, if_false]
  case asleep => simp only [writerTurn, hp, (Seconds.before_iff _ _).mpr hw, if_true]
  case wakes =>
    refine ⟨wake s, ?_, rfl, rfl, rfl, rfl⟩
    simp only [writerTurn, hp, (Seconds.not_before_iff _ _).mpr hw, if_false, Bool.false_eq_true]
  case exited => simp only [writerTurn, hp]

end Sys2Proof.Machine

/-! SUPPORT and proofs for the statement that every command has an outcome
(93_implementation_defined.md part B): an operation with the words its packet says answers a next
state, and never with more words than COUNT can say (R54, R56). -/

namespace Sys2Proof.Machine

variable {s t u : State} {q : Issue}

/-! ### Every operation answers -/

/-- The outcome is a next state in which the issuing port shows no more words than COUNT can say. -/
def Answers (s : State) (o : Host.Outcome State Fault Refusal) : Prop :=
  ∃ t, o = .next t ∧ (t.replyAt s.bus.port).wordsOf.length ≤ 65535

theorem answers_finish {r : Result} (hr : r.wordsOf.length ≤ 65535) : Answers s (finish r s) :=
  ⟨_, rfl, by rwa [State.withReply_replyAt_same]⟩

theorem answers_raise (e : Error) : Answers s (raise e s) :=
  ⟨_, rfl, by rw [State.withReply_replyAt_same]; exact Nat.zero_le _⟩

theorem answers_onWriterPort {k : Host.Outcome State Fault Refusal} (hk : Answers s k) :
    Answers s (onWriterPort s k) := by
  by_cases hp : s.bus.port = .writer
  · rwa [onWriterPort_writer hp]
  · rw [onWriterPort_other hp]
    exact answers_raise _

theorem answers_onBankPort {k : Host.Outcome State Fault Refusal} (hk : Answers s k) :
    Answers s (onBankPort s k) := by
  by_cases hc : ∃ c, s.bus.port = .client c
  · obtain ⟨c, hc⟩ := hc
    rw [onBankPort_client hc]
    exact answers_raise _
  · rwa [onBankPort_block (not_exists.mp hc)]

theorem answers_inSpan {start count : Nat} {k : Host.Outcome State Fault Refusal}
    (hk : Answers s k) : Answers s (inSpan start count s k) := by
  by_cases hn : start + count ≤ s.cfg.n
  · rwa [inSpan_le hn]
  · rw [inSpan_gt (Nat.lt_of_not_le hn)]
    exact answers_raise _

/-- An operation that a packet can spell, presented with the words it takes, answers. -/
theorem exec_answers {i : Instr} (hi : i.wf = true)
    (hw : ∀ n ∈ operandWords i, s.bus.win.length = n) : Answers s (exec i s) := by
  cases i with
  | encf32 o => exact answers_finish (by simp [Result.wordsOf])
  | decf32 o =>
    obtain ⟨reg0, reg1, hwin⟩ := List.length_eq_two.mp (hw 2 rfl)
    rw [exec_decf32_pair hwin]
    exact answers_finish (Nat.zero_le _)
  | encf64 o => exact answers_finish (by simp [Result.wordsOf])
  | decf64 o =>
    obtain ⟨r0, r1, r2, r3, hwin⟩ := List.length_eq_four.mp (hw 4 rfl)
    rw [exec_decf64_quad hwin]
    exact answers_finish (Nat.zero_le _)
  | encu16 => exact answers_finish (by simp [Result.wordsOf, encU16])
  | decu16 =>
    obtain ⟨reg, hwin⟩ := List.length_eq_one_iff.mp (hw 1 rfl)
    rw [exec_decu16_single hwin]
    exact answers_finish (Nat.zero_le _)
  | unpk o count =>
    by_cases hc : count < 38
    · rw [exec_unpk_short hc]
      exact answers_raise _
    · rw [exec_unpk_full (Nat.le_of_not_lt hc), withWords_length (hw count rfl)]
      exact answers_finish (Nat.zero_le _)
  | wrb start count =>
    refine answers_onWriterPort (answers_inSpan ?_)
    rw [withWords_length (hw count rfl)]
    exact answers_finish (s := s.withBank _) (Nat.zero_le _)
  | rdr start count =>
    obtain ⟨-, hcount⟩ := (Bool.and_eq_true _ _).mp hi
    refine answers_onBankPort (answers_inSpan (answers_finish ?_))
    exact (memRead_length _ _ _).trans_le (of_decide_eq_true hcount)
  | ctrpub =>
    exact answers_onWriterPort (answers_inSpan
      (answers_finish (s := (s.withBank _).withK _) (Nat.zero_le _)))

/-! ### Every presentable command answers -/

theorem Issue.presentable_words {i : Instr} (hq : q.presentable = true)
    (hd : decode q.cmd = some i) : ∀ n ∈ operandWords i, q.win.length = n := by
  intro n hn
  rw [Option.mem_def] at hn
  simp only [Issue.presentable, hd, hn] at hq
  exact (hasLength_iff n q.win).mp hq

theorem Issue.presentable_of_words {i : Instr} (hd : decode q.cmd = some i)
    (hw : ∀ n ∈ operandWords i, q.win.length = n) : q.presentable = true := by
  simp only [Issue.presentable, hd]
  split
  · rfl
  · exact (hasLength_iff _ _).mpr (hw _ ‹_›)

/-- R60 and R113: an illegal packet answers too. -/
theorem issue_answers (hq : q.presentable = true) : Answers (s.withBus q) (issue q s) := by
  unfold issue
  split
  · exact answers_raise _
  · rename_i i hd
    exact exec_answers (decode_wf hd) (Issue.presentable_words hq hd)

/-! ### No sequence of words is longer than COUNT can say -/

/-- The part of `State.presentable` that speaks of the state and not of the commands to come. -/
def State.Fits (s : State) : Prop :=
  s.cfg.n ≤ 65535 ∧ s.phase.wordsHeld ≤ 65535 ∧ (∀ c, (s.client c).wordsWaiting ≤ 65535) ∧
    ∀ p, (s.replyAt p).wordsOf.length ≤ 65535

theorem State.presentable_iff :
    s.presentable ↔ s.Fits ∧ ∀ e ∈ s.schedule, e.presentable = true := by
  unfold State.presentable State.Fits
  tauto

theorem Client.wordsWaiting_of_request {x : Client} {r : Reply} (h : x.request = some r) :
    x.wordsWaiting = r.wordsOf.length := by
  simp only [Client.wordsWaiting, h]

theorem Client.wordsWaiting_congr {x y : Client} (h : x.request = y.request) :
    x.wordsWaiting = y.wordsWaiting := by
  simp only [Client.wordsWaiting, h]

theorem State.Fits.withPhase (h : s.Fits) {p : Phase} (hp : p.wordsHeld ≤ 65535) :
    (s.withPhase p).Fits := by
  obtain ⟨cfg, -, waiting, replies⟩ := h
  exact ⟨cfg, hp, waiting, fun q => by rw [State.withPhase_replyAt]; exact replies q⟩

theorem State.Fits.withReply (h : s.Fits) (p : Port) {r : Reply} (hr : r.wordsOf.length ≤ 65535) :
    (s.withReply p r).Fits := by
  obtain ⟨cfg, held, waiting, replies⟩ := h
  refine ⟨by rwa [State.withReply_cfg], by rwa [State.withReply_phase], fun c => ?_, fun q => ?_⟩
  · rw [Client.wordsWaiting_congr (State.withReply_client_request s p r c)]
    exact waiting c
  · rw [State.withReply_replyAt]
    split
    · exact hr
    · exact replies q

theorem State.Fits.withClient (h : s.Fits) (c : Nat) {x : Client} (hw : x.wordsWaiting ≤ 65535)
    (hx : x.reply = (s.client c).reply) : (s.withClient c x).Fits := by
  obtain ⟨cfg, held, waiting, replies⟩ := h
  refine ⟨cfg, held, fun d => ?_, fun q => ?_⟩
  · rw [State.withClient_client]
    split
    · exact hw
    · exact waiting d
  · cases q with
    | writer => exact replies .writer
    | reader j => exact replies (.reader j)
    | client d =>
      rw [State.withClient_replyAt_client]
      split
      · rw [hx]
        exact replies (.client c)
      · exact replies (.client d)

/-- BANK, K and the bus hold no sequence of words that is bounded here. -/
theorem State.Fits.withCommand (h : s.Fits) (m : Memory) (k : BitVec 6) :
    (((s.withBus q).withBank m).withK k).Fits := h

theorem State.Fits.issue (h : s.Fits) (hq : q.presentable = true) :
    ∃ t, issue q s = .next t ∧ t.Fits := by
  obtain ⟨t, ht, hlen⟩ := issue_answers (s := s) hq
  obtain ⟨m, k, r, -, -, rfl⟩ := issue_wrote ht
  rw [State.withBus_bus, State.withReply_replyAt_same] at hlen
  exact ⟨_, ht, (h.withCommand m k).withReply _ hlen⟩

/-! ### The commands of the hosts are presentable -/

/-- The operation of a step of a tick (R95 to R97). -/
def TickStep.instr (o : Order) (words : List Word) : TickStep → Instr
  | .counters => .ctrpub
  | .encode32 _ => .encf32 o
  | .encode64 _ => .encf64 o
  | .write a => .wrb a.toNat words.length

theorem TickStep.issue_cmd (o : Order) (words : List Word) (x : TickStep) :
    (x.issue o words).cmd = encode (x.instr o words) := by cases x <;> rfl

theorem TickStep.instr_wf (o : Order) {words : List Word} (hw : words.length ≤ 65535)
    (x : TickStep) : (x.instr o words).wf = true := by
  cases x with
  | write a => exact (Bool.and_eq_true _ _).mpr ⟨fits16_toNat a, decide_eq_true hw⟩
  | _ => rfl

theorem TickStep.issue_presentable (o : Order) {words : List Word} (hw : words.length ≤ 65535)
    (x : TickStep) : (x.issue o words).presentable = true := by
  have hd : decode (x.issue o words).cmd = some (x.instr o words) := by
    rw [TickStep.issue_cmd]
    exact decodeOfEncode _ (x.instr_wf o hw)
  refine Issue.presentable_of_words hd fun n hn => ?_
  cases x with
  | write a => exact Option.some.inj hn
  | _ => cases hn

theorem rdr_wf (start count : Word) : (Instr.rdr start.toNat count.toNat).wf = true :=
  (Bool.and_eq_true _ _).mpr ⟨fits16_toNat start, fits16_toNat count⟩

/-- SERVERREAD takes no words (R106). -/
theorem State.Fits.serverRead (h : s.Fits) (j : Nat) (start count : Word) :
    ∃ t, serverRead j start count s = .next t ∧ t.Fits :=
  h.issue (Issue.presentable_of_words (decodeOfEncode _ (rdr_wf start count)) nofun)

theorem unpackIssue_decode (c : Nat) (o : Order) {ws : List Word} (hw : ws.length ≤ 65535) :
    decode (unpackIssue c o ws).cmd = some (.unpk o ws.length) :=
  decodeOfEncode _ (decide_eq_true hw)

theorem unpackIssue_presentable (c : Nat) (o : Order) {ws : List Word} (hw : ws.length ≤ 65535) :
    (unpackIssue c o ws).presentable = true :=
  Issue.presentable_of_words (unpackIssue_decode c o hw) fun _ hn => Option.some.inj hn

/-! ### Every agent goes on -/

theorem State.Fits.afterTickStep (h : s.Fits) (elapsed : Seconds) (rest : List TickStep) :
    (afterTickStep elapsed rest s).Fits := by
  generalize hv : Machine.afterTickStep elapsed rest s = v
  cases afterTickStep_cases hv with
  | done => exact h.withPhase (Nat.zero_le _)
  | more =>
    obtain ⟨-, -, -, replies⟩ := id h
    exact h.withPhase (replies .writer)
  | failed => exact State.Fits.withPhase (s := s.withLoop _) h (Nat.zero_le _)

theorem State.Fits.writerTurn (h : s.Fits) (p : Patterns) :
    ∃ t, writerTurn p s = .next t ∧ t.Fits := by
  unfold Machine.writerTurn
  split
  case h_1 => exact ⟨_, rfl, State.Fits.withPhase (s := s.withStartTime _) h (Nat.zero_le _)⟩
  case h_2 =>
    split
    · exact ⟨_, rfl, h.withPhase (Nat.zero_le _)⟩
    · exact ⟨_, rfl, h.withPhase (Nat.zero_le _)⟩
  case h_3 elapsed todo words hp =>
    obtain ⟨-, held, -⟩ := id h
    rw [hp] at held
    cases todo with
    | nil => exact ⟨_, rfl, h.withPhase (Nat.zero_le _)⟩
    | cons x rest =>
      obtain ⟨u, hu, hfits⟩ := h.issue (x.issue_presentable s.cfg.order held)
      exact ⟨_, by simp only [tickTurn, hu], hfits.afterTickStep elapsed rest⟩
  case h_4 =>
    split
    · exact ⟨_, rfl, h⟩
    · exact ⟨_, rfl, State.Fits.withPhase (s := s.withLoop _) h (Nat.zero_le _)⟩
  case h_5 => exact ⟨_, rfl, h⟩

theorem State.Fits.clientRequest (h : s.Fits) (c j : Nat) :
    ∃ t, clientRequest c j s = .next t ∧ t.Fits := by
  unfold Machine.clientRequest
  split
  · exact ⟨_, rfl, h⟩
  · obtain ⟨u, hu, hfits⟩ := h.serverRead j 0#16 (BitVec.ofNat 16 sliceLength)
    obtain ⟨-, -, -, replies⟩ := id hfits
    simp only [hu]
    exact ⟨_, rfl, hfits.withClient c
      ((Client.wordsWaiting_of_request rfl).trans_le (replies (.reader j))) rfl⟩

theorem State.Fits.answered (h : s.Fits) (c : Nat) : (answered c s).Fits :=
  h.withClient c (Nat.zero_le _) rfl

theorem State.Fits.clientDeliver (h : s.Fits) (c : Nat) (d : Delivery) :
    ∃ t, clientDeliver c d s = .next t ∧ t.Fits := by
  unfold Machine.clientDeliver
  split
  · exact ⟨_, rfl, h⟩
  · rename_i answer hr
    cases d with
    | error cause => exact ⟨_, rfl, (h.answered c).withReply _ (Nat.zero_le _)⟩
    | first m =>
      obtain ⟨-, -, waiting, -⟩ := id h
      have hw : answer.wordsOf.length ≤ 65535 := Client.wordsWaiting_of_request hr ▸ waiting c
      exact (h.answered c).issue
        (unpackIssue_presentable c _ ((List.length_take_le' _ _).trans hw))

theorem State.Fits.runEvent (h : s.Fits) {e : Event} (he : e.presentable = true) :
    ∃ t, runEvent e s = .next t ∧ t.Fits := by
  cases e with
  | command q => exact h.issue he
  | writerTurn p => exact h.writerTurn p
  | serverRead j start count => exact h.serverRead j start count
  | clientRequest c j => exact h.clientRequest c j
  | clientDeliver c d => exact h.clientDeliver c d
  | clock x =>
    refine ⟨_, rfl, ?_⟩
    split <;> exact h
  | stopSignal on => exact ⟨_, rfl, h⟩

/-- A step consumes the first item of the schedule and nothing else of it. -/
theorem step_schedule (ht : step s = .next t) : t.schedule = s.schedule.tail := by
  have after {v : State} {e : Event} {es : List Event} (hs : s.schedule = e :: es)
      (hv : v.schedule = es) : v.schedule = s.schedule.tail := by rw [hv, hs, List.tail_cons]
  have issued {q : Issue} {v w : State} (h : issue q v = .next w) : w.schedule = v.schedule := by
    obtain ⟨-, -, -, -, -, -, -, schedule⟩ := issue_rest h
    exact schedule
  cases step_cases ht with
  | waits hs => rw [hs, List.tail_nil]
  | command q es _ hs h => exact after hs (issued h)
  | ticks p es elapsed x rest words u hs _ h =>
    exact after hs ((afterTickStep_schedule _ _ _).trans (issued h))
  | serves j start count es _ hs h => exact after hs (issued h)
  | requests c j es u hs _ h => exact after hs (issued h)
  | passesError c cause es hs => exact after hs rfl
  | delivers c m es answer _ hs _ h => exact after hs (issued h)
  | clock x es hs => exact after hs (by split <;> rfl)
  | inactive _ _ hs | starts _ _ hs | exits _ _ hs | begins _ _ hs | wakes _ _ _ hs
  | ends _ _ _ _ hs | busy _ _ _ hs | unasked _ _ _ hs | stopSignal _ _ hs => exact after hs rfl

/-- Settles O47: the first item of the schedule is presentable, so its agent goes on, and the items
after it are those that were to come. -/
theorem presentableStateNeverStops : Obligations.PresentableStateNeverStops := by
  intro s h
  obtain ⟨hfits, hsched⟩ := State.presentable_iff.mp h
  cases hs : s.schedule with
  | nil => exact ⟨s, by simp only [step, hs], h⟩
  | cons e es =>
    have rest : (s.withSchedule es).Fits := hfits
    obtain ⟨t, ht, hfits'⟩ := rest.runEvent (hsched e (hs ▸ List.mem_cons_self))
    have hstep : step s = .next t := by simp only [step, hs, ht]
    refine ⟨t, hstep, State.presentable_iff.mpr ⟨hfits', fun e he => hsched e ?_⟩⟩
    rw [step_schedule hstep] at he
    exact List.mem_of_mem_tail he

end Sys2Proof.Machine

/-! SUPPORT and proofs for the statements about the address map (10_state.md, R14 to R18) and what a
tick writes into it (R47, R97): each batch is one whole entry. -/

namespace Sys2Proof.Machine

variable {s t u : State} {q : Issue}

/-! ### The entries -/

/-- R14: the ranges of two entries do not overlap. -/
theorem addressMap_disjoint : ∀ e ∈ addressMap, ∀ e' ∈ addressMap,
    e = e' ∨ e.start + e.length ≤ e'.start ∨ e'.start + e'.length ≤ e.start := by
  decide

theorem MapEntry.covers_iff (e : MapEntry) (a : Nat) :
    e.covers a = true ↔ e.start ≤ a ∧ a < e.start + e.length := by
  simp [MapEntry.covers]

theorem isEntrySpan_iff (a n : Nat) :
    isEntrySpan a n = true ↔ ∃ e ∈ addressMap, e.start = a ∧ e.length = n := by
  simp [isEntrySpan]

theorem not_covers_of_unmapped {a : Nat} (h : isMapped a = false) {e : MapEntry}
    (he : e ∈ addressMap) : a < e.start ∨ e.start + e.length ≤ a := by
  have hc : ¬ e.covers a = true := List.any_eq_false.mp h e he
  rw [MapEntry.covers_iff] at hc
  omega

/-- The entry of the counters. -/
def ctrEntry : MapEntry := ⟨"CTR", .uint16, 0, 10⟩

theorem ctrEntry_mem : ctrEntry ∈ addressMap := by decide

@[simp] theorem TaggedValue.words_length (o : Order) (v : TaggedValue) :
    (v.words o).length = v.kind.width := by
  cases v with
  | uint16 v => rfl
  | float32 v => exact encF32_length o v
  | float64 v => exact encF64_length o v

theorem tickValues_length (k : Nat) (p : Patterns) : (tickValues k p).length = 14 := by
  rfl

/-- The ranges of the logical values of a tick follow one another (R14). -/
theorem tickValues_pairwise (k : Nat) (p : Patterns) :
    (tickValues k p).Pairwise fun v w => v.start + v.length ≤ w.start := by
  have spans : (tickValues k p).map (fun v => (v.start, v.length)) =
      (tickValues 0 ⟨0, 0, 0, 0⟩).map fun v => (v.start, v.length) := rfl
  have closed : ((tickValues 0 ⟨0, 0, 0, 0⟩).map fun v => (v.start, v.length)).Pairwise
      fun v w => v.1 + v.2 ≤ w.1 := by decide
  rw [← spans, List.pairwise_map] at closed
  exact closed

/-- Each logical value of a tick lies in the entry of its kind (R17). -/
theorem tickValues_inside (k : Nat) (p : Patterns) : ∀ v ∈ tickValues k p,
    ∃ e ∈ addressMap, e.kind = v.kind ∧ e.start ≤ v.start ∧
      v.start + v.length ≤ e.start + e.length := by
  have spans : (tickValues k p).map (fun v => (v.start, v.kind)) =
      (tickValues 0 ⟨0, 0, 0, 0⟩).map fun v => (v.start, v.kind) := rfl
  have closed : ∀ x ∈ (tickValues 0 ⟨0, 0, 0, 0⟩).map fun v => (v.start, v.kind),
      ∃ e ∈ addressMap, e.kind = x.2 ∧ e.start ≤ x.1 ∧ x.1 + x.2.width ≤ e.start + e.length := by
    decide
  intro v hv
  exact closed (v.start, v.kind) (spans ▸ List.mem_map_of_mem hv)

/-- Settles O48: the entries do not overlap, every value of a kind is encoded in that kind's width,
and where the logical values of a tick lie does not depend on what they hold. -/
theorem addressMapIsSound : Obligations.AddressMapIsSound := by
  refine ⟨fun a e he e' he' hc hc' => ?disjoint, fun v o =>
    ⟨v.value.words_length o, fun e _ hk => ?width⟩,
    fun k p => ⟨tickValues_length k p, tickValues_pairwise k p, tickValues_inside k p⟩⟩
  case disjoint =>
    rw [MapEntry.covers_iff] at hc hc'
    exact (addressMap_disjoint e he e' he').resolve_right (by omega)
  case width => rw [MapEntry.length, hk, LogicalValue.length]

/-! ### A command of a tick -/

/-- What a command of a tick leaves in BANK and K and replies: CTRPUB and WRB write what fits, the
encodes return their words, and what does not fit fails and writes nothing (R95 to R98). -/
inductive TickEffect (s : State) (words : List Word) :
    TickStep → Memory → BitVec 6 → Reply → Prop where
  | counters (hn : 10 ≤ s.cfg.n) : TickEffect s words .counters
      (memWrite s.bank 0 (counters s.k.toNat)) (nextTickIndex s.k) (.ok .nothing)
  | encode32 (v : Bits32) :
      TickEffect s words (.encode32 v) s.bank s.k (.ok (.words (encF32 v s.cfg.order)))
  | encode64 (v : Bits64) :
      TickEffect s words (.encode64 v) s.bank s.k (.ok (.words (encF64 v s.cfg.order)))
  | write (a : Word) (hn : a.toNat + words.length ≤ s.cfg.n) :
      TickEffect s words (.write a) (memWrite s.bank a.toNat words) s.k (.ok .nothing)
  | countersFail (hn : s.cfg.n < 10) :
      TickEffect s words .counters s.bank s.k (.failed (.outOfRange 0 10))
  | writeFails (a : Word) (hn : s.cfg.n < a.toNat + words.length) :
      TickEffect s words (.write a) s.bank s.k (.failed (.outOfRange a.toNat words.length))

/-- The low half of a zero-extended float32 is the float32. -/
theorem extractLsb'_setWidth_bits32 (v : Bits32) : (v.setWidth 64).extractLsb' 0 32 = v := by
  rw [BitVec.extractLsb'_setWidth_of_le (by decide), BitVec.extractLsb'_eq_self]

/-- A command of a tick answers with its effect (R95 to R97). -/
theorem issue_tickStep (s : State) {words : List Word} {x : TickStep}
    (hx : (x.instr s.cfg.order words).wf = true) : ∃ m k r, TickEffect s words x m k r ∧
      issue (x.issue s.cfg.order words) s =
        .next ((((s.withBus (x.issue s.cfg.order words)).withBank m).withK k).withReply
          .writer r) := by
  have hexec : issue (x.issue s.cfg.order words) s =
      exec (x.instr s.cfg.order words) (s.withBus (x.issue s.cfg.order words)) := by
    simp only [issue, x.issue_cmd, decodeOfEncode _ hx]
  rw [hexec]
  cases x with
  | counters =>
    by_cases hn : 10 ≤ s.cfg.n
    · exact ⟨_, _, _, .counters hn, exec_ctrpub_next rfl hn⟩
    · exact ⟨_, _, _, .countersFail (Nat.lt_of_not_le hn),
        exec_ctrpub_outside rfl (Nat.lt_of_not_le hn)⟩
  | encode32 v =>
    have hvin : vin32 (s.withBus (TickStep.issue s.cfg.order words (.encode32 v))) = v :=
      extractLsb'_setWidth_bits32 v
    refine ⟨_, _, _, .encode32 v, ?_⟩
    show finish (.words (encF32 (vin32 _) _)) _ = _
    rw [hvin]
    rfl
  | encode64 v => exact ⟨_, _, _, .encode64 v, rfl⟩
  | write a =>
    by_cases hn : a.toNat + words.length ≤ s.cfg.n
    · refine ⟨_, _, _, .write a hn, ?_⟩
      refine (exec_wrb_inside (s := s.withBus (TickStep.issue s.cfg.order words (.write a)))
        rfl hn).trans ?_
      exact withWords_length rfl
    · exact ⟨_, _, _, .writeFails a (Nat.lt_of_not_le hn),
        exec_wrb_outside rfl (Nat.lt_of_not_le hn)⟩

/-- The effect does not depend on the commands to come. -/
theorem TickEffect.of_withSchedule {es : List Event} {words : List Word} {x : TickStep} {m : Memory}
    {k : BitVec 6} {r : Reply} (h : TickEffect (s.withSchedule es) words x m k r) :
    TickEffect s words x m k r := by
  cases h with
  | counters hn => exact .counters hn
  | encode32 v => exact .encode32 v
  | encode64 v => exact .encode64 v
  | write a hn => exact .write a hn
  | countersFail hn => exact .countersFail hn
  | writeFails a hn => exact .writeFails a hn

/-! ### The invariant of the writer port left to the UpdateLoop -/

/-- The batch W's tick in progress is about to issue, as the entry it fills and its words. -/
inductive NextBatch (s : State) : MapEntry → List Word → Prop where
  | counters (elapsed : Seconds) (rest : List TickStep) (words : List Word)
      (hp : s.phase = .ticking elapsed (.counters :: rest) words) :
      NextBatch s ctrEntry (counters s.k.toNat)
  | write (elapsed : Seconds) (rest : List TickStep) (words : List Word) (e : MapEntry)
      (he : e ∈ addressMap) (hw : words.length = e.length)
      (hp : s.phase = .ticking elapsed (.write (BitVec.ofNat 16 e.start) :: rest) words) :
      NextBatch s e words

theorem NextBatch.mem {e : MapEntry} {ws : List Word} (h : NextBatch s e ws) : e ∈ addressMap := by
  cases h with
  | counters => exact ctrEntry_mem
  | write elapsed rest _ _ he => exact he

theorem NextBatch.length {e : MapEntry} {ws : List Word} (h : NextBatch s e ws) :
    ws.length = e.length := by
  cases h with
  | counters => exact counters_length _
  | write elapsed rest _ _ _ hw => exact hw

/-- A write at the head of a tick that keeps to the map fills an entry, and the tick keeps to the
map behind it (R14). -/
theorem keepsMap_write {a : Word} {rest : List TickStep} {n : Nat}
    (h : writesEntries (.write a :: rest) n = true) :
    (∃ e ∈ addressMap, e.start = a.toNat ∧ e.length = n) ∧ writesEntries rest 0 = true := by
  obtain ⟨hspan, hrest⟩ := (Bool.and_eq_true _ _).mp h
  exact ⟨(isEntrySpan_iff _ _).mp hspan, hrest⟩

theorem addressMap_length_le : ∀ e ∈ addressMap, e.length ≤ 10 := by decide

/-- So the packet of the next command of such a tick can say its count. -/
theorem instr_wf_of_keepsMap {o : Order} {x : TickStep} {rest : List TickStep} {words : List Word}
    (h : writesEntries (x :: rest) words.length = true) : (x.instr o words).wf = true := by
  cases x with
  | write a =>
    obtain ⟨⟨e, he, -, hlen⟩, -⟩ := keepsMap_write h
    have hle : words.length ≤ 10 := hlen ▸ addressMap_length_le e he
    exact TickStep.instr_wf o (hle.trans (by decide)) _
  | _ => rfl

/-- What the command leaves when it succeeds, the rest of the tick keeps to the map with. -/
theorem TickEffect.keepsMap {words : List Word} {x : TickStep} {rest : List TickStep} {m : Memory}
    {k : BitVec 6} {r : Reply} (h : TickEffect s words x m k r) (hok : r.status = some .ok)
    (hk : writesEntries (x :: rest) words.length = true) :
    writesEntries rest r.wordsOf.length = true := by
  cases h with
  | counters => exact hk
  | encode32 v =>
    rw [Reply.wordsOf, Result.wordsOf, encF32_length]
    exact hk
  | encode64 v =>
    rw [Reply.wordsOf, Result.wordsOf, encF64_length]
    exact hk
  | write a => exact (keepsMap_write hk).2
  | countersFail => cases hok
  | writeFails => cases hok

/-- The command writes nothing, or the batch that was next (R97). -/
theorem TickEffect.bank {words : List Word} {x : TickStep} {rest : List TickStep} {m : Memory}
    {k : BitVec 6} {r : Reply} {elapsed : Seconds} (h : TickEffect s words x m k r)
    (hp : s.phase = .ticking elapsed (x :: rest) words)
    (hk : writesEntries (x :: rest) words.length = true) :
    m = s.bank ∨ ∃ e ws, NextBatch s e ws ∧ m = memWrite s.bank e.start ws := by
  cases h with
  | counters => exact .inr ⟨_, _, .counters _ _ _ hp, rfl⟩
  | write a =>
    obtain ⟨⟨e, he, hstart, hlen⟩, -⟩ := keepsMap_write hk
    have ha : a = BitVec.ofNat 16 e.start := by rw [hstart, BitVec.ofNat_toNat, BitVec.setWidth_eq]
    exact .inr ⟨e, words, .write _ _ _ e he hlen.symm (ha ▸ hp), hstart ▸ rfl⟩
  | _ => exact .inl rfl

/-- A fresh tick keeps to the map (R17, R97). -/
theorem writesEntries_tick (p : Patterns) : writesEntries (tick p) 0 = true := rfl

/-- One step under the invariant: the writer's phase keeps to the map, and BANK is as it was or has
the batch that was next. -/
theorem HostInv.step (hi : HostInv s) (ht : step s = .next t) :
    t.phase.keepsMap = true ∧
      (t.bank = s.bank ∨ ∃ e ws, NextBatch s e ws ∧ t.bank = memWrite s.bank e.start ws) := by
  obtain ⟨spares, keeps, -⟩ := hi
  cases writerStep_of_step ht with
  | away _ h =>
    obtain ⟨-, bank, -, -, -, -, -, -, phase⟩ := h
    exact ⟨phase ▸ keeps, .inl bank⟩
  | command q es _ hs hq =>
    have hne : q.port ≠ .writer := by
      simpa [Event.sparesWriterPort] using spares (.command q) (hs ▸ List.mem_cons_self)
    exact absurd hq hne
  | begins p es => exact ⟨writesEntries_tick p, .inl rfl⟩
  | ticks es elapsed x rest words u hp h =>
    rw [hp, Phase.keepsMap] at keeps
    obtain ⟨m, k, r, heffect, hnext⟩ := issue_tickStep (s.withSchedule es) (x := x) (words := words)
      (instr_wf_of_keepsMap keeps)
    obtain rfl := Host.Outcome.next.inj (hnext.symm.trans h)
    refine ⟨?_, ?_⟩
    · generalize hv : afterTickStep elapsed rest _ = v
      cases afterTickStep_cases hv with
      | done => rfl
      | more hok => exact heffect.keepsMap hok keeps
      | failed => rfl
    · rw [afterTickStep_bank, State.withReply_bank]
      exact heffect.of_withSchedule.bank hp keeps
  | starts => exact ⟨rfl, .inl rfl⟩
  | exits => exact ⟨rfl, .inl rfl⟩
  | wakes => exact ⟨rfl, .inl rfl⟩
  | ends => exact ⟨rfl, .inl rfl⟩
  | clock => exact ⟨keeps, .inl rfl⟩
  | stopSignal => exact ⟨keeps, .inl rfl⟩

/-- Settles O50: the schedule only gets shorter, and a batch that fills an entry writes no register
outside the map. -/
theorem stepKeepsHostInv : Obligations.StepKeepsHostInv := by
  intro s t hi ht
  obtain ⟨keeps, hbank⟩ := hi.step ht
  obtain ⟨spares, -, zero⟩ := hi
  refine ⟨fun e he => spares e ?_, keeps, fun a ha => ?_⟩
  · rw [step_schedule ht] at he
    exact List.mem_of_mem_tail he
  · obtain same | ⟨e, ws, hbatch, hwrite⟩ := hbank
    · rw [same]
      exact zero a ha
    · have houtside := not_covers_of_unmapped ha hbatch.mem
      rw [hwrite, memWrite_read_outside _ _ _ (hbatch.length ▸ houtside)]
      exact zero a ha

/-- Settles O49: BANK is empty and W has not begun. -/
theorem hostInvHoldsAtReset : Obligations.HostInvHoldsAtReset :=
  fun _ _ h => ⟨h, rfl, fun _ _ => rfl⟩

/-- A batch that does not reach a span leaves its words as they were. -/
theorem memRead_memWrite_disjoint (m : Memory) {a b n : Nat} {ws : List Word}
    (h : b + n ≤ a ∨ a + ws.length ≤ b) : memRead (memWrite m a ws) b n = memRead m b n :=
  memRead_congr fun _ _ _ => memWrite_read_outside m a ws (by omega)

/-- Settles O51: the batch that was next fills its own entry with its words, and does not reach any
other. -/
theorem entriesChangeAsAWhole : Obligations.EntriesChangeAsAWhole := by
  intro s t hi ht e he
  obtain ⟨-, same | ⟨e', ws, hbatch, hwrite⟩⟩ := hi.step ht
  · exact .inl (by rw [same])
  · rw [hwrite]
    obtain rfl | hdisjoint := addressMap_disjoint e he e' hbatch.mem
    · have hread : memRead (memWrite s.bank e.start ws) e.start e.length = ws := by
        rw [← hbatch.length, memRead_memWrite]
      cases hbatch with
      | counters elapsed rest words hp => exact .inr (.inr ⟨_, _, _, hp, rfl, hread⟩)
      | write elapsed rest _ _ _ hw hp => exact .inr (.inl ⟨_, _, _, hp, hw, hread⟩)
    · exact .inl (memRead_memWrite_disjoint _ (by rw [hbatch.length]; exact hdisjoint))

end Sys2Proof.Machine

/-! SUPPORT and proofs for the statements about layout and the float codec (20_memory.md section 2,
40_float_codec.md): splitting and joining are inverse (R36, R37), and so are encode and decode
(R71). -/

namespace Sys2Proof.Machine

variable {s t : State} {p : Packet}

/-! ### Splitting and joining -/

theorem join32_split32 (v : Bits32) : join32 (split32 v) = v := by
  have halves := BitVec.extractLsb'_append_extractLsb'_eq_extractLsb' (x := v) (start₂ := 16)
    (start₁ := 0) (len₁ := 16) (len₂ := 16) rfl
  exact halves.trans BitVec.extractLsb'_eq_self

theorem split32_join32 (ws : Word × Word) : split32 (join32 ws) = ws := by
  rw [join32, split32, BitVec.extractLsb'_append_eq_left, BitVec.extractLsb'_append_eq_right]

theorem join64_split64 (v : Bits64) : join64 (split64 v) = v := by
  rw [split64, join64,
    BitVec.extractLsb'_append_extractLsb'_eq_extractLsb' (show 48 = 32 + 16 from rfl),
    BitVec.extractLsb'_append_extractLsb'_eq_extractLsb' (show 32 = 16 + 16 from rfl),
    BitVec.extractLsb'_append_extractLsb'_eq_extractLsb' (show 16 = 0 + 16 from rfl)]
  exact BitVec.extractLsb'_eq_self

theorem split64_join64 (ws : Word × Word × Word × Word) : split64 (join64 ws) = ws := by
  obtain ⟨a, b, c, d⟩ := ws
  have word48 : (a ++ b ++ c ++ d).extractLsb' 48 16 = a := by
    rw [BitVec.extractLsb'_append_eq_of_le (by decide),
      BitVec.extractLsb'_append_eq_of_le (by decide)]
    exact BitVec.extractLsb'_append_eq_left
  have word32 : (a ++ b ++ c ++ d).extractLsb' 32 16 = b := by
    rw [BitVec.extractLsb'_append_eq_of_le (by decide),
      BitVec.extractLsb'_append_eq_of_le (by decide)]
    exact BitVec.extractLsb'_append_eq_right
  have word16 : (a ++ b ++ c ++ d).extractLsb' 16 16 = c := by
    rw [BitVec.extractLsb'_append_eq_of_le (by decide)]
    exact BitVec.extractLsb'_append_eq_right
  have word0 : (a ++ b ++ c ++ d).extractLsb' 0 16 = d := BitVec.extractLsb'_append_eq_right
  rw [join64, split64]
  exact Prod.ext word48 (Prod.ext word32 (Prod.ext word16 word0))

/-- Settles O1: the two halves in their places, and the two inverse laws. -/
theorem split32AndJoin32AreInverse : Obligations.Split32AndJoin32AreInverse :=
  fun v a b => ⟨rfl, rfl, join32_split32 v, split32_join32 (a, b)⟩

/-- R39: `ord4` is its own inverse for each order. -/
theorem ord4_involutive (o : Order) : Function.Involutive (ord4 o) := by
  intro ws
  cases o <;> rfl

/-- Settles O3: LittleEndian is the reversal of a quadruple, and the register table of a float64 is
`split64` under each order. -/
theorem fourWordSplitAndOrderLayout : Obligations.FourWordSplitAndOrderLayout :=
  fun a b c d o v => ⟨rfl, rfl, join64_split64 v, split64_join64 (a, b, c, d), rfl, rfl,
    ord4_involutive o (a, b, c, d), rfl, rfl⟩

/-! ### Encoding and decoding -/

theorem pairList_inj {ws : Word × Word} {a b : Word} : pairList ws = [a, b] ↔ ws = (a, b) := by
  simp [pairList, Prod.ext_iff]

theorem quadList_inj {ws : Word × Word × Word × Word} {a b c d : Word} :
    quadList ws = [a, b, c, d] ↔ ws = (a, b, c, d) := by
  simp [quadList, Prod.ext_iff]

/-- R71: two words are the encoding of one pattern, their decoding (R68). -/
theorem encF32_eq_iff (o : Order) (a b : Word) (v : Bits32) :
    encF32 v o = [a, b] ↔ v = decF32 a b o := by
  have split_eq : split32 v = ord2 o (a, b) ↔ v = join32 (ord2 o (a, b)) :=
    ⟨fun h => h ▸ (join32_split32 v).symm, fun h => h ▸ split32_join32 _⟩
  rw [encF32, pairList_inj, (ord2_involutive o).eq_iff, split_eq, decF32]

theorem encF64_eq_iff (o : Order) (a b c d : Word) (v : Bits64) :
    encF64 v o = [a, b, c, d] ↔ v = decF64 a b c d o := by
  have split_eq : split64 v = ord4 o (a, b, c, d) ↔ v = join64 (ord4 o (a, b, c, d)) :=
    ⟨fun h => h ▸ (join64_split64 v).symm, fun h => h ▸ split64_join64 _⟩
  rw [encF64, quadList_inj, (ord4_involutive o).eq_iff, split_eq, decF64]

/-- DECF32 under any order of what ENCF32 returned under any order. -/
theorem exec_decf32_of_encF32 {v : Bits32} {o : Order} (o' : Order) (h : s.bus.win = encF32 v o) :
    returns (exec (.decf32 o') s) s
      (.value ((join32 (ord2 o' (ord2 o (split32 v)))).setWidth 64)) := by
  rw [exec_decf32_pair (h.trans rfl)]
  exact finish_returns s _

/-- DECF64 under any order of what ENCF64 returned under any order. -/
theorem exec_decf64_of_encF64 {v : Bits64} {o : Order} (o' : Order) (h : s.bus.win = encF64 v o) :
    returns (exec (.decf64 o') s) s (.value (join64 (ord4 o' (ord4 o (split64 v))))) := by
  rw [exec_decf64_quad (h.trans rfl)]
  exact finish_returns s _

/-- Settles O5: `ord2` and `ord4` undo themselves and joining undoes splitting; the other way, the
words are the encoding of their decoding. -/
theorem floatRoundTrip : Obligations.FloatRoundTrip := by
  refine fun o => ⟨fun s s' => ?decode32, fun s s' => ?decode64, fun s s' hl => ?encode32,
    fun s s' hl => ?encode64⟩
  case decode32 =>
    obtain ⟨t, ht, hreply⟩ := next_replyAt_of_returns (exec_encf32_returns o s)
    refine ⟨t, _, ht, hreply, fun hwin => ?_⟩
    have hdec := exec_decf32_of_encF32 o hwin
    rw [ord2_involutive, join32_split32] at hdec
    exact next_replyAt_of_returns hdec
  case decode64 =>
    obtain ⟨t, ht, hreply⟩ := next_replyAt_of_returns (exec_encf64_returns o s)
    refine ⟨t, _, ht, hreply, fun hwin => ?_⟩
    have hdec := exec_decf64_of_encF64 o hwin
    rw [ord4_involutive, join64_split64] at hdec
    exact next_replyAt_of_returns hdec
  case encode32 =>
    obtain ⟨a, b, hwin⟩ := List.length_eq_two.mp hl
    refine ⟨_, _, exec_decf32_pair hwin, State.withReply_replyAt_same _ _ _, fun hvin => ?_⟩
    have hv : vin32 s' = decF32 a b o := by rw [vin32, hvin, extractLsb'_setWidth_bits32]
    have henc := exec_encf32_returns o s'
    rw [(encF32_eq_iff o a b _).mpr hv, ← hwin] at henc
    exact next_replyAt_of_returns henc
  case encode64 =>
    obtain ⟨a, b, c, d, hwin⟩ := List.length_eq_four.mp hl
    refine ⟨_, _, exec_decf64_quad hwin, State.withReply_replyAt_same _ _ _, fun hvin => ?_⟩
    have henc := exec_encf64_returns o s'
    rw [(encF64_eq_iff o a b c d (vin64 s')).mpr hvin, ← hwin] at henc
    exact next_replyAt_of_returns henc

/-- Settles O7: the other order reverses the words that `split32` and `split64` gave before they are
joined (D22), and the word cut from VIN[31:0] is the one cut from VIN. -/
theorem orderMismatchReversesWords : Obligations.OrderMismatchReversesWords := by
  refine ⟨fun s s' => ?single, fun s s' => ?double⟩
  case single =>
    obtain ⟨t, ht, hreply⟩ := next_replyAt_of_returns (exec_encf32_returns .bigEndian s)
    refine ⟨t, _, ht, hreply, fun hwin => ?_⟩
    have hdec := exec_decf32_of_encF32 .littleEndian hwin
    rw [ord2_bigEndian, ord2_littleEndian, split32, vin32_extractLsb' s (by decide),
      vin32_extractLsb' s (by decide)] at hdec
    exact next_replyAt_of_returns hdec
  case double =>
    obtain ⟨t, ht, hreply⟩ := next_replyAt_of_returns (exec_encf64_returns .littleEndian s)
    refine ⟨t, _, ht, hreply, fun hwin => ?_⟩
    have hdec := exec_decf64_of_encF64 .bigEndian hwin
    rw [split64, ord4, ord4, join64] at hdec
    exact next_replyAt_of_returns hdec

/-! ### The operations -/

/-- The packets of DECF32 leave only ORD free (R57, R59). -/
theorem decode_decf32_fields {o : Order} (h : decode p = some (.decf32 o)) :
    opField p = 2#4 ∧ addrField p = 0#16 ∧ countField p = 0#16 := by
  obtain ⟨-, hspells⟩ := decode_spells h
  cases hspells with
  | decf32 hop haddr hcount => exact ⟨hop, haddr, hcount⟩

/-- Settles O9: two words leave DECF32 no choice but `decF32`, which is `join32` of the words in
their order. -/
theorem decf32Result : Obligations.Decf32Result := by
  refine ⟨fun o s reg0 reg1 hwin => ?result, by decide, by decide, fun _ _ => decode_decf32_fields,
    encF32_eq_iff, fun v => rfl, by decide, by decide⟩
  case result =>
    rw [exec_decf32_pair hwin]
    cases o <;> exact finish_returns s _

/-- Settles O10: the words of `encF64` under each order. -/
theorem encf64Result : Obligations.Encf64Result := by
  intro o s
  cases o with
  | bigEndian => exact exec_encf64_returns .bigEndian s
  | littleEndian => exact exec_encf64_returns .littleEndian s

/-- Settles O11: four words leave DECF64 no choice but `decF64`, which is `join64` of the words in
their order. -/
theorem decf64Result : Obligations.Decf64Result := by
  intro o s r0 r1 r2 r3 hwin
  rw [exec_decf64_quad hwin]
  cases o <;> exact finish_returns s _

end Sys2Proof.Machine

/-! SUPPORT and proofs for the statements about the unpacker (44_unpacker.md): the fields of a slice
(R90, R91) and the words it does not look at (R93). -/

namespace Sys2Proof.Machine

variable {s : State} {p : Packet}

/-- UNPK of a slice that is long enough, of the length its packet says (R90). -/
theorem exec_unpk_returns {o : Order} {count : Nat} (hc : 38 ≤ count)
    (hw : s.bus.win.length = count) :
    returns (exec (.unpk o count) s) s (.fields (unpack o s.bus.win)) := by
  rw [exec_unpk_full hc, withWords_length hw]
  exact finish_returns s _

/-- A packet of OP 7 that spells an operation has ADDR zero (R57). -/
theorem spells_unpk_addr {i : Instr} (h : Spells p i) (hop : opField p = 7#4) :
    addrField p = 0#16 := by
  cases h
  case unpk _ haddr => exact haddr
  all_goals exact absurd hop (by rw [‹opField p = _›]; decide)

/-- The ten counters are the first ten words (R91). -/
theorem unpack_ctr (o : Order) (ws : List Word) :
    (unpack o ws).ctr = (List.range 10).map fun i => ws.getD i 0#16 := by
  simp [unpack, counterCount, ctrAddr, decU16]

/-- Settles O14: the fields are those of `unpack`, read off the slice, and a packet of OP 7 with a
start address spells nothing. -/
theorem unpkPartitionsSlice : Obligations.UnpkPartitionsSlice := by
  refine ⟨fun o count s hc hw => ⟨_, exec_unpk_returns hc hw, ?length,
    fun i hi => ?counters, rfl, rfl, rfl, rfl⟩, fun p hop haddr => ?illegal⟩
  case length => simp [unpack_ctr]
  case counters => simp [unpack_ctr, List.getD, hi]
  case illegal =>
    refine Option.eq_none_iff_forall_ne_some.mpr fun i hi => ?_
    obtain ⟨-, hspells⟩ := decode_spells hi
    exact haddr (spells_unpk_addr hspells hop)

/-- Two results of one outcome are the same. -/
theorem returns_inj {o : Host.Outcome State Fault Refusal} {r r' : Result} (h : returns o s r)
    (h' : returns o s r') : r = r' := by
  obtain ⟨t, ht, hreply, -⟩ := h
  obtain ⟨t', ht', hreply', -⟩ := h'
  obtain rfl : t = t' := Host.Outcome.next.inj (ht.symm.trans ht')
  exact Reply.ok.inj (hreply.symm.trans hreply')

/-- R93: the fields depend on the words of the address map alone. -/
theorem unpack_congr (o : Order) {ws ws' : List Word}
    (h : ∀ a < 38, isMapped a = true → ws.getD a 0#16 = ws'.getD a 0#16) :
    unpack o ws = unpack o ws' := by
  have hctr : (unpack o ws).ctr = (unpack o ws').ctr := by
    rw [unpack_ctr, unpack_ctr]
    refine List.map_congr_left fun i hi => ?_
    have hi : i < 10 := List.mem_range.mp hi
    exact h i (by omega) ((isMapped_iff i).mpr (.inl hi))
  rw [unpack, unpack, Fields.mk.injEq]
  refine ⟨hctr, ?_⟩
  simp (disch := decide) only [h, and_self]

/-- Settles O15: both slices unpack to their own fields, which are the same. -/
theorem unpkIgnoresOtherWords : Obligations.UnpkIgnoresOtherWords := by
  intro o n n' s s' r r' hw hw' hn hn' hagree hr hr'
  rw [returns_inj hr (exec_unpk_returns hn hw), returns_inj hr' (exec_unpk_returns hn' hw'),
    unpack_congr o hagree]

end Sys2Proof.Machine

/-! SUPPORT and proofs for the statements about a presented command (30_encoding.md section 3,
60_exceptions.md section 2): it runs what its packet spells, or is refused (R59, R60, R115). -/

namespace Sys2Proof.Machine

variable {s : State} {q : Issue}

theorem issue_of_decode {i : Instr} (hd : decode q.cmd = some i) :
    issue q s = exec i (s.withBus q) := by
  simp only [issue, hd]

theorem issue_illegal (hd : decode q.cmd = none) :
    issue q s = raise (.illegalCommand q.cmd) (s.withBus q) := by
  simp only [issue, hd]

theorem step_cons {e : Event} {es : List Event} (hs : s.schedule = e :: es) :
    step s = runEvent e (s.withSchedule es) := by
  simp only [step, hs]

theorem step_command {i : Instr} {es : List Event} (hs : s.schedule = .command q :: es)
    (hd : decode q.cmd = some i) : step s = exec i ((s.withSchedule es).withBus q) :=
  (step_cons hs).trans (issue_of_decode hd)

/-- Settles O41: that the operation is well formed is not even needed, decoding gives it. -/
theorem stepRunsDecodedCommand : Obligations.StepRunsDecodedCommand :=
  fun _ _ _ _ hs hd _ => step_command hs hd

/-- R60: an illegal packet ends in IllegalCommand, whatever the port. -/
theorem issue_illegal_endsIn (hd : decode q.cmd = none) :
    endsIn (issue q s) (s.withBus q) (.illegalCommand q.cmd) := by
  rw [issue_illegal hd]
  exact raise_endsIn (s.withBus q) _

/-- Settles O42: the step is the presented command. -/
theorem stepRefusesIllegalPacket : Obligations.StepRefusesIllegalPacket :=
  fun _ _ _ hs hd => step_cons hs ▸ issue_illegal_endsIn hd

/-! ### Roles -/

/-- R123: WRB off the writer port, whatever its span (D11, log 9). -/
theorem exec_wrb_other_endsIn {start count : Nat} (hp : s.bus.port ≠ .writer) :
    endsIn (exec (.wrb start count) s) s (.illegalCommand s.bus.cmd) := by
  rw [exec_wrb_other hp]
  exact raise_endsIn s _

/-- R123: CTRPUB off the writer port. -/
theorem exec_ctrpub_other_endsIn (hp : s.bus.port ≠ .writer) :
    endsIn (exec .ctrpub s) s (.illegalCommand s.bus.cmd) := by
  rw [exec_ctrpub_other hp]
  exact raise_endsIn s _

/-- Settles O30: a reader port is not the writer port. -/
theorem readerPortsCannotWrite : Obligations.ReaderPortsCannotWrite := by
  intro j start count s hp
  have off : s.bus.port ≠ .writer := by simp [hp]
  exact ⟨exec_wrb_other_endsIn off, exec_ctrpub_other_endsIn off⟩

/-- Settles O31: a client's port is not the writer port, and has no bank behind it (log 9). -/
theorem clientInstancesHaveNoBank : Obligations.ClientInstancesHaveNoBank := by
  intro c start count s hp
  have off : s.bus.port ≠ .writer := by simp [hp]
  refine ⟨exec_wrb_other_endsIn off, ?_, exec_ctrpub_other_endsIn off⟩
  rw [exec_rdr_client hp]
  exact raise_endsIn s _

end Sys2Proof.Machine

/-! SUPPORT and proofs for the statements about the register bank (42_register_bank.md): WRB and RDR
inside the bank and past its end (R78 to R80), and that what was read is a copy (R45, R82). -/

namespace Sys2Proof.Machine

variable {s t u : State} {p : Packet}

/-! ### WRB -/

/-- WRB where it completes: the batch and the reply, in one step (R78). -/
theorem exec_wrb_next {start count : Nat} (hp : s.bus.port = .writer) (hn : start + count ≤ s.cfg.n)
    (hw : s.bus.win.length = count) : exec (.wrb start count) s =
      .next ((s.withBank (memWrite s.bank start s.bus.win)).withReply .writer (.ok .nothing)) := by
  rw [exec_wrb_inside hp hn, withWords_length hw, finish_eq, State.withBank_bus, hp]

/-- Settles O17: the completing case of WRB is one explicit next state, and each clause reads one
part of it. -/
theorem wrbWritesBatch : Obligations.WrbWritesBatch := by
  intro start count s hp hn hw
  refine ⟨_, exec_wrb_next hp hn hw, State.withReply_replyAt_same _ _ _, fun j hj => ?batch,
    fun a ha => ?outside, rfl, s.restSame_withReply (memWrite s.bank start s.bus.win) s.k _ _⟩
  case batch =>
    rw [State.withReply_bank, State.withBank_bank, memWrite_read, if_pos (by omega),
      Nat.add_sub_cancel_left]
    rfl
  case outside =>
    rw [State.withReply_bank, State.withBank_bank]
    exact memWrite_read_outside _ _ _ (hw.symm ▸ ha)

/-- R80: past the end of the bank WRB only raises (D8). -/
theorem exec_wrb_outside_endsIn {start count : Nat} (hp : s.bus.port = .writer)
    (hn : s.cfg.n < start + count) :
    endsIn (exec (.wrb start count) s) s (.outOfRange start count) := by
  rw [exec_wrb_outside hp hn]
  exact raise_endsIn s _

/-- R80 for a presented command. -/
theorem issue_wrb_outside_endsIn {q : Issue} {start count : Nat} (hq : q.port = .writer)
    (hd : decode q.cmd = some (.wrb start count)) (hn : s.cfg.n < start + count) :
    endsIn (issue q s) (s.withBus q) (.outOfRange start count) := by
  rw [issue_of_decode hd]
  exact exec_wrb_outside_endsIn hq hn

/-- Settles O33: the packet is looked at before the port, and the port before the span (D15). -/
theorem errorPriority : Obligations.ErrorPriority := by
  refine ⟨fun q s => issue_illegal_endsIn, fun q j start count s hq hd _ => ?role,
    fun q start count s => issue_wrb_outside_endsIn⟩
  case role =>
    have off : (s.withBus q).bus.port ≠ .writer := by simp [hq]
    rw [issue_of_decode hd]
    exact exec_wrb_other_endsIn off

/-- Settles O18: the bound check fails before any word is written. -/
theorem wrbOutOfRangeWritesNothing : Obligations.WrbOutOfRangeWritesNothing :=
  fun _ _ _ => exec_wrb_outside_endsIn

/-! ### RDR -/

/-- RDR where it completes: the snapshot and no other effect (R79). -/
theorem exec_rdr_inside_returns {start count : Nat} (hp : ∀ c, s.bus.port ≠ .client c)
    (hn : start + count ≤ s.cfg.n) :
    returns (exec (.rdr start count) s) s (.words (memRead s.bank start count)) := by
  rw [exec_rdr_inside hp hn]
  exact finish_returns s _

theorem exec_rdr_outside_endsIn {start count : Nat} (hp : ∀ c, s.bus.port ≠ .client c)
    (hn : s.cfg.n < start + count) :
    endsIn (exec (.rdr start count) s) s (.outOfRange start count) := by
  rw [exec_rdr_outside hp hn]
  exact raise_endsIn s _

/-- A packet of OP 9 that spells an operation has ORD zero (R57). -/
theorem spells_rdr_ord {i : Instr} (h : Spells p i) (hop : opField p = 9#4) : ordField p = 0#1 := by
  cases h
  case rdr _ hord => exact hord
  all_goals exact absurd hop (by rw [‹opField p = _›]; decide)

/-- Settles O19: the two cases of the bound check, and the packets of OP 9. -/
theorem rdrSnapshotOrOutOfRange : Obligations.RdrSnapshotOrOutOfRange := by
  refine ⟨fun start count s hp hn => ⟨_, exec_rdr_inside_returns hp hn, memRead_length _ _ _,
    fun j hj => memRead_getD _ _ hj⟩, fun start count s => exec_rdr_outside_endsIn,
    fun a n => ?packet, fun p hop hord => ?illegal⟩
  case packet =>
    have hd := decodeOfEncode _ (rdr_wf a n)
    rw [encode, BitVec.ofNat_toNat, BitVec.ofNat_toNat, BitVec.setWidth_eq,
      BitVec.setWidth_eq] at hd
    exact ⟨_, opField_assemble _ _ _ _, ordField_assemble _ _ _ _, addrField_assemble _ _ _ _,
      countField_assemble _ _ _ _, hd⟩
  case illegal =>
    refine Option.eq_none_iff_forall_ne_some.mpr fun i hi => ?_
    obtain ⟨-, hspells⟩ := decode_spells hi
    exact hord (spells_rdr_ord hspells hop)

/-- An RDR that shows words was inside the bank, and shows the snapshot. -/
theorem exec_rdr_words {start count : Nat} {ws : List Word} (hp : ∀ c, s.bus.port ≠ .client c)
    (ht : exec (.rdr start count) s = .next t) (hws : t.replyAt s.bus.port = .ok (.words ws)) :
    start + count ≤ s.cfg.n ∧ ws = memRead s.bank start count ∧
      t = s.withReply s.bus.port (.ok (.words ws)) := by
  have hn : start + count ≤ s.cfg.n := by
    by_contra hn
    exact endsIn_replyAt_ne_ok (exec_rdr_outside_endsIn hp (Nat.lt_of_not_le hn)) ht _ hws
  rw [exec_rdr_inside hp hn, finish_eq] at ht
  obtain rfl := Host.Outcome.next.inj ht
  rw [State.withReply_replyAt_same, Reply.ok.injEq, Result.words.injEq] at hws
  exact ⟨hn, hws.symm, by rw [hws]⟩

/-- A command on another port leaves what this port shows. -/
theorem exec_replyAt_other {i : Instr} {q : Port} (hq : q ≠ s.bus.port) (ht : exec i s = .next t) :
    t.replyAt q = s.replyAt q := by
  obtain ⟨m, k, r, -, rfl⟩ := exec_next_cases ht
  rw [State.withReply_replyAt, if_neg hq, State.withK_replyAt, State.withBank_replyAt]

/-- Settles O20: the WRB is on another port, and after the first RDR the bank and the command are
what they were. -/
theorem readResultIsACopy : Obligations.ReadResultIsACopy := by
  intro j start count a n s t u q ws hp ht hws hq hu
  have block : ∀ c, s.bus.port ≠ .client c := by simp [hp]
  refine ⟨?kept, ?again⟩
  case kept =>
    have hne : Port.reader j ≠ (t.withBus q).bus.port := by simp [hq]
    rw [exec_replyAt_other hne hu, State.withBus_replyAt, hws]
  case again =>
    rw [← hp] at hws ⊢
    obtain ⟨hn, hread, rfl⟩ := exec_rdr_words block ht hws
    have hagain := exec_rdr_inside_returns (s := s.withReply s.bus.port (.ok (.words ws)))
      (by simpa using block) (by simpa using hn)
    rw [State.withReply_bank, ← hread] at hagain
    simpa using next_replyAt_of_returns hagain

/-! ### Writing twice -/

/-- The second of two equal batches finds the registers as it would leave them. -/
theorem memWrite_memWrite {m : Memory} (h : m.wf) (start : Nat) (ws : List Word) :
    memWrite (memWrite m start ws) start ws = memWrite m start ws := by
  have hw := memWrite_wf start ws h
  refine Sparse.ext_of_wf (memWrite_wf start ws hw) hw fun a => ?_
  show Memory.read _ a = Memory.read _ a
  rw [memWrite_read (memWrite m start ws)]
  split
  · rw [memWrite_read, if_pos ‹_›]
  · rfl

theorem exec_wrb_win {start count : Nat} (hp : s.bus.port = .writer) (hn : start + count ≤ s.cfg.n)
    (ht : exec (.wrb start count) s = .next t) : s.bus.win.length = count := by
  by_contra hw
  rw [exec_wrb_inside hp hn, withWords_ne hw] at ht
  cases ht

/-- Settles O21: inside the bank the second batch changes no register of a canonical BANK, and past
its end neither writes; the reply is the same. -/
theorem wrbTwiceIsWrbOnce : Obligations.WrbTwiceIsWrbOnce := by
  intro start count s t u hwf hp ht hu
  by_cases hn : start + count ≤ s.cfg.n
  · have hw := exec_wrb_win hp hn ht
    rw [exec_wrb_next hp hn hw] at ht
    obtain rfl := Host.Outcome.next.inj ht
    have hu' := (exec_wrb_next (s := (s.withBank (memWrite s.bank start s.bus.win)).withReply
      .writer (.ok .nothing)) hp hn hw).symm.trans hu
    obtain rfl := Host.Outcome.next.inj hu'
    exact congrArg (fun m => (s.withBank m).withReply .writer (.ok .nothing))
      (memWrite_memWrite hwf start s.bus.win)
  · have hn := Nat.lt_of_not_le hn
    rw [exec_wrb_outside hp hn, raise_eq, hp] at ht
    obtain rfl := Host.Outcome.next.inj ht
    have hu' := (exec_wrb_outside (s := s.withReply .writer (.failed (.outOfRange start count)))
      hp hn).symm.trans hu
    rw [raise_eq, State.withReply_bus, hp] at hu'
    exact (Host.Outcome.next.inj hu').symm

/-! ### Empty spans -/

/-- Settles O22: the bound check of a span of no words is `start ≤ N`, and an empty batch leaves
BANK as it is (D9). -/
theorem emptySpans : Obligations.EmptySpans := by
  refine fun start s => ⟨fun hp hn => ?readInside, fun hp hn => exec_rdr_outside_endsIn hp hn,
    fun hp hw hn => ?writeInside, fun hp hn => exec_wrb_outside_endsIn hp hn⟩
  case readInside => exact exec_rdr_inside_returns (count := 0) hp hn
  case writeInside =>
    have hlen : s.bus.win.length = 0 := by rw [hw, List.length_nil]
    rw [exec_wrb_inside (count := 0) hp hn, withWords_length hlen, hw]
    exact finish_returns s _

end Sys2Proof.Machine

/-! SUPPORT and proofs for the statements about the counter serializer (43_counter_serializer.md):
the shape of the counters (R85), CTRPUB again and again (R87), and CTRPUB on a small bank. -/

namespace Sys2Proof.Machine

variable {s t u : State}

/-- Settles O24: the bound check fails before BANK or K is touched. -/
theorem ctrpubOutOfRangeKeepsTickIndex : Obligations.CtrpubOutOfRangeKeepsTickIndex := by
  intro s hp hn
  rw [exec_ctrpub_outside hp hn]
  exact raise_endsIn s _

/-- A counter is zero exactly when its number is. -/
theorem counters_getD_eq_zero (k : Nat) {i : Nat} (hi : i < 10) :
    (counters k).getD i 0#16 = 0#16 ↔ (k + i) % 51 = 0 := by
  rw [← counters_getD_toNat k hi, ← BitVec.toNat_inj]
  rfl

/-- Ten numbers in a row have ten residues. -/
theorem counters_nodup (k : Nat) : (counters k).Nodup := by
  refine List.Nodup.map_on (fun i hi j hj h => ?_) List.nodup_range
  rw [List.mem_range, counterCount] at hi hj
  have hmod : (k + i) % 51 % 2 ^ 16 = (k + j) % 51 % 2 ^ 16 := congrArg BitVec.toNat h
  omega

/-- Settles O26: every clause is one about the residues (k + i) mod 51. -/
theorem countersBoundAndShape : Obligations.CountersBoundAndShape := by
  intro k
  have value : ∀ i < 10, ((counters k).getD i 0).toNat = (k + i) % 51 :=
    fun i hi => counters_getD_toNat k hi
  have zero : ∀ i < 10, (counters k).getD i 0 = 0 ↔ (k + i) % 51 = 0 :=
    fun i hi => counters_getD_eq_zero k hi
  refine ⟨fun i hi => ⟨?bound, value i hi⟩, counters_mod k, fun i hi => ?successor,
    counters_nodup k, fun i hi j hj => ?oneWrap,
    ⟨fun ⟨i, hi, h50, h0⟩ => ?wrapLate, fun hk => ?lateWrap⟩, fun i hi => ?shift⟩
  case bound =>
    rw [value i hi]
    omega
  case successor =>
    rw [value i (by omega), value (i + 1) (by omega)]
    omega
  case oneWrap =>
    rw [value i (by omega), value j (by omega)]
    omega
  case wrapLate =>
    rw [value i (by omega)] at h50
    omega
  case lateWrap =>
    refine ⟨50 - k % 51, by omega, ?_, ?_⟩
    · rw [value _ (by omega)]
      omega
    · rw [zero _ (by omega)]
      omega
  case shift =>
    refine BitVec.eq_of_toNat_eq ?_
    rw [value (i + 1) (by omega)]
    refine (counters_getD_toNat (k + 1) (by omega)).trans ?_
    rw [Nat.add_assoc, Nat.add_comm 1]

/-- One CTRPUB of the schedule: a step that publishes the counters (R86). -/
theorem step_ctrpubEvent {es : List Event} (hs : s.schedule = ctrpubEvent :: es)
    (hn : 10 ≤ s.cfg.n) :
    ∃ t, step s = .next t ∧ t.cfg = s.cfg ∧ t.schedule = es ∧ t.k = nextTickIndex s.k ∧
      t.bank = memWrite s.bank 0 (counters s.k.toNat) := by
  have hd : decode (encode .ctrpub) = some .ctrpub := decodeOfEncode _ rfl
  exact ⟨_, (step_command hs hd).trans (exec_ctrpub_next rfl hn), rfl, rfl, rfl, rfl⟩

/-- Settles O27, by induction on the number of CTRPUBs: the last one publishes the tick index that
the ones before it left. -/
theorem countersAfterManyCtrpubs : Obligations.CountersAfterManyCtrpubs := by
  intro n s later hk hn hs
  suffices h : ∃ t, run n s = .next t ∧ t.cfg = s.cfg ∧ t.k.toNat = n % 51 ∧ t.schedule = later ∧
      (1 ≤ n → ∀ i < 10, (t.bank.read i).toNat = (n - 1 + i) % 51) ∧ s.bankSameOutside 0 10 t by
    obtain ⟨t, ht, -, rest⟩ := h
    exact ⟨t, ht, rest⟩
  induction n generalizing later with
  | zero =>
    refine ⟨s, rfl, rfl, by rw [hk]; rfl, hs, fun h => absurd h (by decide), fun _ _ => rfl⟩
  | succ n ih =>
    rw [List.replicate_succ', List.append_assoc] at hs
    obtain ⟨t, ht, hcfg, htk, hsched, -, houtside⟩ := ih (ctrpubEvent :: later) hs
    obtain ⟨u, hu, hucfg, husched, huk, hubank⟩ := step_ctrpubEvent hsched (hcfg ▸ hn)
    refine ⟨u, ?_, hucfg.trans hcfg, ?_, husched, fun _ i hi => ?_, fun a ha => ?_⟩
    · rw [run_add ht, run_succ hu]
      rfl
    · rw [huk, nextTickIndex_toNat, htk, Nat.mod_add_mod]
    · rw [hubank, memWrite_counters_read_toNat _ _ hi, htk, Nat.mod_add_mod, Nat.add_sub_cancel]
    · rw [hubank, memWrite_read_outside _ _ _ (by rwa [counters_length])]
      exact houtside a ha

end Sys2Proof.Machine

/-! SUPPORT and proofs for the statements about the errors of the operations (60_exceptions.md
section 1): which operation raises which error (R111), and the word operand no port can carry (log
8). -/

namespace Sys2Proof.Machine

variable {s t : State} {e : Error}

/-- After a raise the port shows the raised error and no other. -/
theorem raise_shows {e' : Error} (ht : raise e' s = .next t) :
    t.replyAt s.bus.port = .failed e ↔ e = e' := by
  obtain rfl := Host.Outcome.next.inj ht
  rw [State.withReply_replyAt_same, Reply.failed.injEq, eq_comm]

/-- After a result the port shows no error. -/
theorem finish_shows {r : Result} (ht : finish r s = .next t) :
    t.replyAt s.bus.port = .failed e ↔ False := by
  obtain rfl := Host.Outcome.next.inj ht
  rw [State.withReply_replyAt_same]
  exact ⟨nofun, False.elim⟩

/-- Words of the right number are all that the operation asks for. -/
theorem withWords_shows {n : Nat} {f : List Word → Result} {m : List Word → Memory}
    (ht : withWords n s (fun ws => finish (f ws) (s.withBank (m ws))) = .next t) :
    t.replyAt s.bus.port = .failed e ↔ False := by
  by_cases hw : s.bus.win.length = n
  · rw [withWords_length hw] at ht
    exact finish_shows (s := s.withBank (m s.bus.win)) ht
  · rw [withWords_ne hw] at ht
    cases ht

/-- Settles O28: each check of an operation raises its own error, and behind its checks an operation
only returns or stops (R111, D11). -/
theorem whichOperationRaisesWhat : Obligations.WhichOperationRaisesWhat := by
  intro i s t e hblock ht
  cases i with
  | encf32 o => exact finish_shows ht
  | decf32 o =>
    obtain ⟨_, _, hw⟩ := exec_decf32_win ht
    exact finish_shows (exec_decf32_pair hw ▸ ht)
  | encf64 o => exact finish_shows ht
  | decf64 o =>
    obtain ⟨_, _, _, _, hw⟩ := exec_decf64_win ht
    exact finish_shows (exec_decf64_quad hw ▸ ht)
  | encu16 => exact finish_shows ht
  | decu16 =>
    obtain ⟨_, hw⟩ := exec_decu16_win ht
    exact finish_shows (exec_decu16_single hw ▸ ht)
  | unpk o count =>
    by_cases hc : count < 38
    · rw [exec_unpk_short hc] at ht
      simpa [hc] using raise_shows ht
    · rw [exec_unpk_full (Nat.le_of_not_lt hc)] at ht
      simpa [hc] using withWords_shows (m := fun _ => s.bank) ht
  | wrb start count =>
    by_cases hp : s.bus.port = .writer
    · by_cases hn : s.cfg.n < start + count
      · rw [exec_wrb_outside hp hn] at ht
        simpa [hp, hn] using raise_shows ht
      · rw [exec_wrb_inside hp (Nat.le_of_not_lt hn)] at ht
        simpa [hp, hn] using withWords_shows (f := fun _ => .nothing) ht
    · rw [exec_wrb_other hp] at ht
      simpa [hp] using raise_shows ht
  | rdr start count =>
    by_cases hn : s.cfg.n < start + count
    · rw [exec_rdr_outside hblock hn] at ht
      simpa [hn] using raise_shows ht
    · rw [exec_rdr_inside hblock (Nat.le_of_not_lt hn)] at ht
      simpa [hn] using finish_shows ht
  | ctrpub =>
    by_cases hp : s.bus.port = .writer
    · by_cases hn : s.cfg.n < 10
      · rw [exec_ctrpub_outside hp hn] at ht
        simpa [hp, hn] using raise_shows ht
      · rw [exec_ctrpub_inside hp (Nat.le_of_not_lt hn)] at ht
        simpa [hp, hn] using finish_shows (s := (s.withBank _).withK _) ht
    · rw [exec_ctrpub_other hp] at ht
      simpa [hp] using raise_shows ht

/-- Settles O32: the match on WIN has no case for another number of words (log 8). -/
theorem wrongWordCountStops : Obligations.WrongWordCountStops := by
  refine fun o start count s => ⟨fun hw => ?decf32, fun hw => ?decf64, fun hw => ?decu16,
    fun hc hw => ?unpk, fun hp hn hw => ?wrb⟩
  case decf32 =>
    simp only [exec, execDecf32]
    split
    · exact absurd (congrArg List.length ‹_›) hw
    · rfl
  case decf64 =>
    simp only [exec, execDecf64]
    split
    · exact absurd (congrArg List.length ‹_›) hw
    · rfl
  case decu16 =>
    simp only [exec, execDecu16]
    split
    · exact absurd (congrArg List.length ‹_›) hw
    · rfl
  case unpk => rw [exec_unpk_full hc, withWords_ne hw]
  case wrb => rw [exec_wrb_inside hp hn, withWords_ne hw]

end Sys2Proof.Machine

/-! SUPPORT and proofs for the statements about reset (10_state.md section 9) and about the reader
hosts and clients (45_host_sequences.md section 4): SERVERREAD (R106) and the two halves of
CLIENTREAD (R107, R108). -/

namespace Sys2Proof.Machine

variable {s t u : State} {q : Issue}

/-- Settles O43: the fields of `State.reset`, where BANK and the maps are empty. -/
theorem resetState : Obligations.ResetState := by
  refine ⟨fun c => ⟨fun _ => rfl, rfl, rfl, rfl, rfl, fun p => ?idle, fun _ => rfl, rfl⟩, rfl,
    rfl, rfl, ?update, ?backoff⟩
  case idle => cases p <;> rfl
  case update => simp [Cfg.default]
  case backoff => simp [Cfg.default]

/-! ### SERVERREAD -/

/-- The command of SERVERREAD (R106). -/
def serverReadIssue (j : Nat) (start count : Word) : Issue :=
  { port := .reader j, cmd := encode (.rdr start.toNat count.toNat), vin := 0#64, win := [] }

theorem serverRead_eq (j : Nat) (start count : Word) (s : State) :
    serverRead j start count s =
      exec (.rdr start.toNat count.toNat) (s.withBus (serverReadIssue j start count)) :=
  issue_of_decode (decodeOfEncode _ (rdr_wf start count))

/-- Settles O56: the packet of RDR decodes to it, for all 16-bit operands. -/
theorem serverReadIsOneRdr : Obligations.ServerReadIsOneRdr :=
  fun j start count s => ⟨serverReadIssue j start count, rfl, serverRead_eq j start count s⟩

/-! ### CLIENTREAD -/

theorem answered_replyAt (c : Nat) (p : Port) : (answered c s).replyAt p = s.replyAt p := by
  cases p with
  | writer => rfl
  | reader j => rfl
  | client d =>
    rw [answered, State.withClient_replyAt_client]
    split
    · rw [‹d = c›]
      rfl
    · rfl

/-- Settles O58: the delivery of an error is one reply on the client, and the request is over. -/
theorem transportErrorPassesThrough : Obligations.TransportErrorPassesThrough := by
  intro c cause s later hr hs
  refine ⟨_, (step_cons hs).trans (clientDeliver_error cause hr),
    State.withReply_replyAt_same _ _ _, ?request, ?bus, ?writer, fun p hp => ?others⟩
  case request => rw [State.withReply_client_request, answered, State.withClient_client_same]
  case bus => rw [State.withReply_bus]; rfl
  case writer =>
    exact ((s.writerSame_withSchedule later).trans (State.writerSame_withClient c _)).trans
      (State.writerSame_withReply (by nofun) _)
  case others =>
    rw [State.withReply_replyAt, if_neg hp, answered_replyAt, State.withSchedule_replyAt]

/-- A request carries what the server's read answered (R107). -/
theorem step_clientRequest_of_serverRead {c j : Nat} {es : List Event}
    (hr : (s.client c).request = none) (hs : s.schedule = .clientRequest c j :: es)
    (hu : serverRead j 0#16 (BitVec.ofNat 16 sliceLength) (s.withSchedule es) = .next u) :
    step s = .next (carryAnswer c j u) := by
  rw [step_cons hs, runEvent, clientRequest, State.withSchedule_client, hr]
  simp only [hu]

/-- The request of a CLIENTREAD on a bank of at least 38 words: the client waits for the words 0 to
37 of the bank as it is now (R107). -/
theorem step_clientRequest {c j : Nat} {es : List Event} (hn : 38 ≤ s.cfg.n)
    (hr : (s.client c).request = none) (hs : s.schedule = .clientRequest c j :: es) :
    ∃ t, step s = .next t ∧ t.schedule = es ∧ s.writerSame t ∧
      (t.client c).request = some (.ok (.words (memRead s.bank 0 38))) ∧
      (t.client c).order = (s.client c).order := by
  have hread : serverRead j 0#16 (BitVec.ofNat 16 sliceLength) (s.withSchedule es) =
      .next (((s.withSchedule es).withBus (serverReadIssue j 0#16 38#16)).withReply (.reader j)
        (.ok (.words (memRead s.bank 0 38)))) :=
    (serverRead_eq j 0#16 38#16 _).trans (exec_rdr_inside nofun hn)
  refine ⟨_, step_clientRequest_of_serverRead hr hs hread, rfl, ?_, ?_, ?_⟩
  · exact (((s.writerSame_withSchedule es).trans (serverRead_writerSame hread))).trans
      (State.writerSame_withClient c _)
  · rw [carryAnswer, State.withClient_client_same, State.withReply_replyAt_same]
  · rw [carryAnswer, State.withClient_client_same]
    rfl

/-- UNPK where it completes: the fields of the slice and no other effect, in one step (R90). -/
theorem exec_unpk_next {o : Order} {count : Nat} (hc : 38 ≤ count) (hw : s.bus.win.length = count) :
    exec (.unpk o count) s =
      .next (s.withReply s.bus.port (.ok (.fields (unpack o s.bus.win)))) := by
  rw [exec_unpk_full hc, withWords_length hw, finish_eq]

/-- What the client shows once the first `m` of 38 words are delivered and unpacked (R92, R107). -/
theorem step_clientDeliver {c m : Nat} {es : List Event} {ws : List Word} (hl : ws.length = 38)
    (hr : (s.client c).request = some (.ok (.words ws)))
    (hs : s.schedule = .clientDeliver c (.first m) :: es) :
    ∃ t, step s = .next t ∧ t.schedule = es ∧ s.writerSame t ∧
      t.replyAt (.client c) = (if 38 ≤ m then .ok (.fields (unpack (s.client c).order ws))
        else .failed (.insufficientData m)) := by
  have hfits : (ws.take m).length ≤ 65535 := by
    rw [List.length_take, hl]
    omega
  have hstep : step s = exec (.unpk (s.client c).order (ws.take m).length)
      ((answered c (s.withSchedule es)).withBus
        (unpackIssue c (s.client c).order (ws.take m))) := by
    rw [step_cons hs, runEvent, clientDeliver, State.withSchedule_client, hr]
    exact issue_of_decode (unpackIssue_decode c _ hfits)
  have same (r : Reply) : s.writerSame (((answered c (s.withSchedule es)).withBus
      (unpackIssue c (s.client c).order (ws.take m))).withReply (.client c) r) :=
    ⟨rfl, rfl, rfl, rfl, rfl, rfl, rfl, rfl, rfl⟩
  by_cases hm : 38 ≤ m
  · have htake : ws.take m = ws := List.take_of_length_le (hl.trans_le hm)
    refine ⟨_, hstep.trans (exec_unpk_next (by rw [htake, hl]) (by rfl)), rfl, same _, ?_⟩
    rw [if_pos hm]
    conv_rhs => rw [← htake]
    exact State.withReply_replyAt_same _ _ _
  · have hlen : (ws.take m).length = m := List.length_take_of_le (by omega)
    rw [hlen, exec_unpk_short (by omega)] at hstep
    refine ⟨_, hstep, rfl, same _, ?_⟩
    rw [if_neg hm]
    exact State.withReply_replyAt_same _ _ _

/-- Settles O57: the request and the delivery, one after the other. -/
theorem clientReadReturnsTheBank : Obligations.ClientReadReturnsTheBank := by
  intro c j m s later hn hr hs
  obtain ⟨t, ht, hsched, hsame, hreq, horder⟩ := step_clientRequest hn hr hs
  obtain ⟨u, hu, hdone, hsame', hreply⟩ := step_clientDeliver (memRead_length _ _ _) hreq hsched
  refine ⟨u, ?_, hdone, hsame.trans hsame', horder ▸ hreply⟩
  rw [run_succ ht, run_succ hu, run]

end Sys2Proof.Machine

/-! SUPPORT and the proof for the statement that readers and clients do not influence the writer
(60_exceptions.md section 5, R124): the writer's moves look at nothing of theirs. -/

namespace Sys2Proof.Machine

variable {s s' t : State} {q : Issue}

/-! ### What the writer's side does not look at -/

/-- Other reader ports, other clients and other commands to come. -/
def State.withAway (rs : Sparse Reply) (cs : Sparse Client) (es : List Event) (s : State) : State :=
  { s with readers := rs, clients := cs, schedule := es }

/-- The same outcome with these in the next state. -/
def outcomeAway (rs : Sparse Reply) (cs : Sparse Client) (es : List Event) :
    Host.Outcome State Fault Refusal → Host.Outcome State Fault Refusal
  | .next t => .next (t.withAway rs cs es)
  | .fault f => .fault f
  | .refused r => .refused r

theorem State.writerSame_withAway (q : Issue) (rs : Sparse Reply) (cs : Sparse Client)
    (es : List Event) : s.writerSame ((s.withBus q).withAway rs cs es) :=
  ⟨rfl, rfl, rfl, rfl, rfl, rfl, rfl, rfl, rfl⟩

/-- States alike to the writer's side differ in these and in the bus. -/
theorem State.writerSame_iff :
    s.writerSame t ↔ t = (s.withBus t.bus).withAway t.readers t.clients t.schedule := by
  constructor
  · rintro ⟨cfg, bank, k, wReply, loop, stop, startTime, now, phase⟩
    rw [State.withAway, State.withBus, ← cfg, ← bank, ← k, ← wReply, ← loop, ← stop, ← startTime,
      ← now, ← phase]
  · intro h
    rw [h]
    exact State.writerSame_withAway _ _ _ _

section
variable (rs : Sparse Reply) (cs : Sparse Client) (es : List Event)

theorem finish_away (hp : s.bus.port = .writer) (r : Result) :
    finish r (s.withAway rs cs es) = outcomeAway rs cs es (finish r s) := by
  have hp' : (s.withAway rs cs es).bus.port = .writer := hp
  rw [finish_eq, finish_eq, hp, hp']
  rfl

theorem raise_away (hp : s.bus.port = .writer) (e : Error) :
    raise e (s.withAway rs cs es) = outcomeAway rs cs es (raise e s) := by
  have hp' : (s.withAway rs cs es).bus.port = .writer := hp
  rw [raise_eq, raise_eq, hp, hp']
  rfl

theorem inSpan_away (hp : s.bus.port = .writer) {start count : Nat}
    {k k' : Host.Outcome State Fault Refusal} (hk : k' = outcomeAway rs cs es k) :
    inSpan start count (s.withAway rs cs es) k' =
      outcomeAway rs cs es (inSpan start count s k) := by
  have hn : (s.withAway rs cs es).cfg.n = s.cfg.n := rfl
  unfold inSpan
  rw [hn]
  split
  · exact hk
  · exact raise_away rs cs es hp _

theorem withWords_away {n : Nat} {k k' : List Word → Host.Outcome State Fault Refusal}
    (hk : ∀ ws, k' ws = outcomeAway rs cs es (k ws)) :
    withWords n (s.withAway rs cs es) k' = outcomeAway rs cs es (withWords n s k) := by
  have hw : (s.withAway rs cs es).bus.win = s.bus.win := rfl
  unfold withWords
  rw [hw]
  split
  · exact hk _
  · rfl

/-- R124 for an operation on the writer port. -/
theorem exec_away (hp : s.bus.port = .writer) (i : Instr) :
    exec i (s.withAway rs cs es) = outcomeAway rs cs es (exec i s) := by
  have block : ∀ c, s.bus.port ≠ .client c := by simp [hp]
  have hw : (s.withAway rs cs es).bus.win = s.bus.win := rfl
  cases i with
  | encf32 o => exact finish_away rs cs es hp _
  | decf32 o =>
    simp only [exec, execDecf32, hw]
    split
    · exact finish_away rs cs es hp _
    · rfl
  | encf64 o => exact finish_away rs cs es hp _
  | decf64 o =>
    simp only [exec, execDecf64, hw]
    split
    · exact finish_away rs cs es hp _
    · rfl
  | encu16 => exact finish_away rs cs es hp _
  | decu16 =>
    simp only [exec, execDecu16, hw]
    split
    · exact finish_away rs cs es hp _
    · rfl
  | unpk o count =>
    by_cases hc : count < 38
    · rw [exec_unpk_short hc, exec_unpk_short hc]
      exact raise_away rs cs es hp _
    · rw [exec_unpk_full (Nat.le_of_not_lt hc), exec_unpk_full (Nat.le_of_not_lt hc)]
      exact withWords_away rs cs es fun ws => finish_away rs cs es hp _
  | wrb start count =>
    simp only [exec, execWrb]
    rw [onWriterPort_writer hp, onWriterPort_writer (s := s.withAway rs cs es) hp]
    exact inSpan_away rs cs es hp (withWords_away rs cs es fun ws =>
      finish_away (s := s.withBank (memWrite s.bank start ws)) rs cs es hp _)
  | rdr start count =>
    simp only [exec, execRdr]
    rw [onBankPort_block block, onBankPort_block (s := s.withAway rs cs es) block]
    exact inSpan_away rs cs es hp (finish_away rs cs es hp _)
  | ctrpub =>
    simp only [exec, execCtrpub]
    rw [onWriterPort_writer hp, onWriterPort_writer (s := s.withAway rs cs es) hp]
    exact inSpan_away rs cs es hp (finish_away
      (s := (s.withBank (memWrite s.bank ctrAddr ((counters s.k.toNat).flatMap encU16))).withK
        (nextTickIndex s.k)) rs cs es hp _)

theorem issue_away (hq : q.port = .writer) :
    issue q (s.withAway rs cs es) = outcomeAway rs cs es (issue q s) := by
  cases hd : decode q.cmd with
  | none =>
    rw [issue_illegal hd, issue_illegal hd]
    exact raise_away (s := s.withBus q) rs cs es hq _
  | some i =>
    rw [issue_of_decode hd, issue_of_decode hd]
    exact exec_away (s := s.withBus q) rs cs es hq i

end

/-! ### The writer's moves in states alike to it -/

theorem State.writerSame.symm (h : s.writerSame t) : t.writerSame s := by
  obtain ⟨cfg, bank, k, wReply, loop, stop, startTime, now, phase⟩ := h
  exact ⟨cfg.symm, bank.symm, k.symm, wReply.symm, loop.symm, stop.symm, startTime.symm, now.symm,
    phase.symm⟩

/-- Where the first outcome is a next state, so is the second, and the two are alike to the
writer. -/
def WriterSim (o o' : Host.Outcome State Fault Refusal) : Prop :=
  ∀ t, o = .next t → ∃ t', o' = .next t' ∧ t.writerSame t'

theorem writerSim_next (h : t.writerSame s) : WriterSim (.next t) (.next s) :=
  fun _ ht => ⟨s, rfl, Host.Outcome.next.inj ht ▸ h⟩

theorem writerSim_issue (h : s.writerSame s') (hq : q.port = .writer) :
    WriterSim (issue q s) (issue q s') := by
  intro t ht
  have hs' : issue q s' = issue q (s.withAway s'.readers s'.clients s'.schedule) := by
    rw [State.writerSame_iff.mp h]
    rfl
  rw [hs', issue_away _ _ _ hq, ht]
  exact ⟨_, rfl, State.writerSame_withAway _ _ _ _⟩

/-- What W does after a command it finds in its own reply. -/
theorem State.writerSame.afterTickStep (h : s.writerSame s') (elapsed : Seconds)
    (rest : List TickStep) :
    (afterTickStep elapsed rest s).writerSame (afterTickStep elapsed rest s') := by
  rw [State.writerSame_iff.mp h]
  unfold Machine.afterTickStep
  show State.writerSame (if s.wReply.status = some .ok then _ else _)
    (if s.wReply.status = some .ok then _ else _)
  split
  · cases rest <;> exact State.writerSame_withAway _ _ _ _
  · exact State.writerSame_withAway _ _ _ _

theorem writerSim_tickTurn (h : s.writerSame s') (elapsed : Seconds) (todo : List TickStep)
    (words : List Word) :
    WriterSim (tickTurn elapsed todo words s) (tickTurn elapsed todo words s') := by
  cases todo with
  | nil =>
    rw [State.writerSame_iff.mp h]
    exact writerSim_next (State.writerSame_withAway _ _ _ _)
  | cons x rest =>
    obtain ⟨cfg, -⟩ := id h
    intro t ht
    simp only [tickTurn, cfg] at ht ⊢
    split at ht
    · rename_i u hu
      obtain ⟨u', hu', hsame⟩ := writerSim_issue h (x.issue_port s.cfg.order words) u hu
      obtain rfl := Host.Outcome.next.inj ht
      exact ⟨_, by rw [hu'], hsame.afterTickStep elapsed rest⟩
    · cases ht
    · cases ht

theorem writerSim_writerTurn (h : s.writerSame s') (p : Patterns) :
    WriterSim (writerTurn p s) (writerTurn p s') := by
  have ticking := writerSim_tickTurn h
  rw [State.writerSame_iff] at h
  generalize s'.bus = b, s'.readers = rs, s'.clients = cs, s'.schedule = es at h
  subst h
  have hphase : ((s.withBus b).withAway rs cs es).phase = s.phase := rfl
  cases hp : s.phase with
  | starting =>
    simp only [writerTurn, hphase, hp]
    exact writerSim_next (State.writerSame_withAway _ _ _ _)
  | boundary =>
    simp only [writerTurn, hphase, hp]
    show WriterSim (if s.stop then _ else _) (if s.stop then _ else _)
    split <;> exact writerSim_next (State.writerSame_withAway _ _ _ _)
  | ticking elapsed todo words =>
    simp only [writerTurn, hphase, hp]
    exact ticking elapsed todo words
  | sleeping w =>
    simp only [writerTurn, hphase, hp]
    show WriterSim (if s.now.before w then _ else _) (if s.now.before w then _ else _)
    split <;> exact writerSim_next (State.writerSame_withAway _ _ _ _)
  | exited =>
    simp only [writerTurn, hphase, hp]
    exact writerSim_next (State.writerSame_withAway _ _ _ _)

/-- R124: the writer's own events go alike in states alike to the writer. -/
theorem writerSim_runEvent (h : s.writerSame s') {e : Event} (he : e.isReading = false) :
    WriterSim (runEvent e s) (runEvent e s') := by
  cases e with
  | command q => exact writerSim_issue h (by simpa [Event.isReading] using he)
  | writerTurn p => exact writerSim_writerTurn h p
  | clock x =>
    rw [State.writerSame_iff.mp h]
    refine writerSim_next ?_
    show State.writerSame (if s.now.before x then _ else _) (if s.now.before x then _ else _)
    split <;> exact State.writerSame_withAway _ _ _ _
  | stopSignal on =>
    rw [State.writerSame_iff.mp h]
    exact writerSim_next (State.writerSame_withAway _ _ _ _)
  | _ => cases he

theorem clientRequest_writerSame {c j : Nat} (ht : clientRequest c j s = .next t) :
    s.writerSame t := by
  unfold clientRequest at ht
  split at ht
  · cases ht
    exact .refl s
  · split at ht
    · cases ht
      exact (serverRead_writerSame ‹_›).trans (State.writerSame_withClient c _)
    · cases ht
    · cases ht

theorem clientDeliver_writerSame {c : Nat} {d : Delivery} (ht : clientDeliver c d s = .next t) :
    s.writerSame t := by
  have hanswered : s.writerSame (answered c s) := State.writerSame_withClient c _
  unfold clientDeliver at ht
  split at ht
  · cases ht
    exact .refl s
  · cases d with
    | error cause =>
      cases ht
      exact hanswered.trans (State.writerSame_withReply (by nofun) _)
    | first m => exact hanswered.trans (issue_writerSame (by nofun) ht)

/-- R124: an event of a reader or a client is no event for the writer's side. -/
theorem runEvent_reading_writerSame {e : Event} (he : e.isReading = true)
    (ht : runEvent e s = .next t) : s.writerSame t := by
  cases e with
  | command q => exact issue_writerSame (by simpa [Event.isReading] using he) ht
  | serverRead j start count => exact serverRead_writerSame ht
  | clientRequest c j => exact clientRequest_writerSame ht
  | clientDeliver c d => exact clientDeliver_writerSame ht
  | writerTurn | clock | stopSignal => cases he

/-- What is left of the schedule after the first event of a run. -/
theorem run_cons {e : Event} {es : List Event} {n : Nat} (hs : s.schedule = e :: es)
    (ht : run (n + 1) s = .next t) : ∃ u, runEvent e (s.withSchedule es) = .next u ∧
      u.schedule = es ∧ run n u = .next t := by
  rw [run] at ht
  split at ht
  · rename_i u hu
    refine ⟨u, (step_cons hs).symm.trans hu, ?_, ht⟩
    rw [step_schedule hu, hs, List.tail_cons]
  · cases ht
  · cases ht

/-- A run, and a run of its writer's events alone from a state alike to the writer, end alike. -/
theorem run_filter_writerSame (events : List Event) : ∀ s s' t : State, s.writerSame s' →
    s.schedule = events → s'.schedule = events.filter (fun e => !e.isReading) →
    run events.length s = .next t →
    ∃ u, run (events.filter fun e => !e.isReading).length s' = .next u ∧ t.writerSame u := by
  induction events with
  | nil =>
    intro s s' t h _ _ ht
    exact ⟨s', rfl, Host.Outcome.next.inj ht ▸ h⟩
  | cons e es ih =>
    intro s s' t h hs hs' ht
    obtain ⟨v, hv, hvs, hvt⟩ := run_cons hs ht
    cases he : e.isReading with
    | true =>
      rw [List.filter_cons_of_neg (by simp [he])] at hs' ⊢
      have hsame := (s.writerSame_withSchedule es).trans (runEvent_reading_writerSame he hv)
      exact ih v s' t (hsame.symm.trans h) hvs hs' hvt
    | false =>
      rw [List.filter_cons_of_pos (by simp [he])] at hs' ⊢
      have hrest := (s.writerSame_withSchedule es).symm.trans
        (h.trans (s'.writerSame_withSchedule (es.filter fun e => !e.isReading)))
      obtain ⟨v', hv', hsame⟩ := writerSim_runEvent hrest he v hv
      have hstep := (step_cons hs').trans hv'
      rw [List.length_cons, run_succ hstep]
      exact ih v v' t hsame hvs (by rw [step_schedule hstep, hs', List.tail_cons]) hvt

/-- Settles O36: the run of the writer's events alone is the one from the state itself. -/
theorem readersDoNotInfluenceTheWriter : Obligations.ReadersDoNotInfluenceTheWriter := by
  intro events s t u hs ht hu
  obtain ⟨u', hu', hsame⟩ := run_filter_writerSame events s _ t
    (s.writerSame_withSchedule _) hs rfl ht
  obtain rfl := Host.Outcome.next.inj (hu'.symm.trans hu)
  exact hsame

end Sys2Proof.Machine

/-! SUPPORT and the proof for the statement about the host's signal functions (45_host_sequences.md
section 3, R100 to R104), which no step reads. -/

namespace Sys2Proof.Machine

/-- A residue is not negative. -/
theorem realMod_nonneg (t : ℝ) {m : ℝ} (hm : 0 < m) : 0 ≤ realMod t m := by
  have hfloor : (⌊t / m⌋ : ℝ) * m ≤ t := (le_div_iff₀ hm).mp (Int.floor_le _)
  rw [realMod]
  linarith

/-- A residue is less than the modulus. -/
theorem realMod_lt (t : ℝ) {m : ℝ} (hm : 0 < m) : realMod t m < m := by
  have hfloor : t < ((⌊t / m⌋ : ℝ) + 1) * m := (div_lt_iff₀ hm).mp (Int.lt_floor_add_one _)
  rw [realMod]
  linarith

/-- A triangle is ten times a distance of at most 10 from the middle of its period (R103). -/
theorem triangle_bounds (t : ℝ) : -50 ≤ triangle t ∧ triangle t ≤ 50 := by
  have hlow := realMod_nonneg t (m := 20) (by norm_num)
  have hhigh := realMod_lt t (m := 20) (by norm_num)
  have habs : |realMod t 20 - 10| ≤ 10 := abs_le.mpr ⟨by linarith, by linarith⟩
  have hpos := abs_nonneg (realMod t 20 - 10)
  rw [triangle]
  constructor <;> linarith

/-- A residue of a number of the first period is the number. -/
theorem realMod_of_lt {t m : ℝ} (h0 : 0 ≤ t) (hm : t < m) : realMod t m = t := by
  have hfloor : ⌊t / m⌋ = 0 :=
    Int.floor_eq_zero_iff.mpr ⟨div_nonneg h0 (h0.trans hm.le), (div_lt_one (h0.trans_lt hm)).mpr hm⟩
  rw [realMod, hfloor, Int.cast_zero, mul_zero, sub_zero]

/-- Settles O60: sine and cosine are the library's, and ramp and triangle are those of a residue. -/
theorem signalBounds : Obligations.SignalBounds := by
  refine ⟨fun t => ⟨Real.neg_one_le_sin _, Real.sin_le_one _⟩,
    fun t => ⟨Real.neg_one_le_cos _, Real.cos_le_one _⟩,
    fun t => ⟨realMod_nonneg t (by norm_num), realMod_lt t (by norm_num)⟩, triangle_bounds,
    ?sine, ?cosine, ?ramp0, ?ramp50, ?ramp110, ?triangle0, ?triangle10⟩
  case sine => rw [Machine.sine, mul_zero, Real.sin_zero]
  case cosine => rw [Machine.cosine, mul_zero, Real.cos_zero]
  case ramp0 => exact realMod_of_lt le_rfl (by norm_num)
  case ramp50 => exact realMod_of_lt (by norm_num) (by norm_num)
  case ramp110 =>
    have hfloor : ⌊(110 / 100 : ℝ)⌋ = 1 := Int.floor_eq_iff.mpr ⟨by norm_num, by norm_num⟩
    rw [ramp, realMod, hfloor]
    norm_num
  case triangle0 =>
    rw [triangle, realMod_of_lt le_rfl (by norm_num)]
    norm_num
  case triangle10 =>
    rw [triangle, realMod_of_lt (by norm_num) (by norm_num)]
    norm_num

end Sys2Proof.Machine

/-! SUPPORT and proofs for the statements about a whole tick (45_host_sequences.md section 2, R97,
R98, R119, R120) and about what a client then reads (R107). -/

namespace Sys2Proof.Machine

variable {s t u : State}

/-! ### What a tick leaves -/

/-- What a command of a tick leaves in BANK and K and returns; nothing where it fails. -/
def TickStep.outcome (c : Cfg) (words : List Word) (m : Memory) (k : BitVec 6) :
    TickStep → Option (Memory × BitVec 6 × List Word)
  | .counters =>
    if 10 ≤ c.n then
      some (memWrite m 0 (Machine.counters k.toNat), nextTickIndex k, [])
    else none
  | .encode32 v => some (m, k, encF32 v c.order)
  | .encode64 v => some (m, k, encF64 v c.order)
  | .write a =>
    if a.toNat + words.length ≤ c.n then some (memWrite m a.toNat words, k, []) else none

/-- What the commands of a tick leave in BANK and K, up to the first that fails, and whether none
does (R98). -/
def tickOutcome (c : Cfg) : List TickStep → List Word → Memory → BitVec 6 → Memory × BitVec 6 × Bool
  | [], _, m, k => (m, k, true)
  | x :: rest, words, m, k =>
    match x.outcome c words m k with
    | some (m', k', words') => tickOutcome c rest words' m' k'
    | none => (m, k, false)

/-- The state in which W sleeps after a tick, in Running if no command failed and in ErrorBackoff if
one did (R119, R120): BANK and K are as given, and the clients were not concerned. -/
structure SleepsAfter (s : State) (later : List Event) (m : Memory) (k : BitVec 6) (ok : Bool)
    (t : State) : Prop where
  schedule : t.schedule = later
  cfg : t.cfg = s.cfg
  now : t.now = s.now
  bank : t.bank = m
  k : t.k = k
  clients : t.clients = s.clients
  loop : t.loop = if ok then .running else .errorBackoff
  sleep : ∃ wakeAt, t.phase = .sleeping wakeAt ∧
    wakeAt.value = s.now.value + (if ok then s.cfg.updateS else s.cfg.backoffS).value

theorem SleepsAfter.congr {later : List Event} {m : Memory} {k : BitVec 6} {ok : Bool}
    (h : SleepsAfter u later m k ok t) (hcfg : u.cfg = s.cfg) (hnow : u.now = s.now)
    (hclients : u.clients = s.clients) : SleepsAfter s later m k ok t := by
  obtain ⟨schedule, cfg, now, bank, hk, clients, loop, sleep⟩ := h
  rw [hnow, hcfg] at sleep
  exact ⟨schedule, cfg.trans hcfg, now.trans hnow, bank, hk, clients.trans hclients, loop, sleep⟩

/-! ### Turns of W -/

/-- Turns of W while it sleeps change nothing (R125). -/
theorem run_asleep {n : Nat} {p : Patterns} {later : List Event} {w : Seconds}
    (hs : s.schedule = List.replicate n (.writerTurn p) ++ later) (hp : s.phase = .sleeping w)
    (hw : s.now.value < w.value) : run n s = .next (s.withSchedule later) := by
  induction n generalizing s with
  | zero =>
    obtain rfl : s.schedule = later := hs
    rfl
  | succ n ih =>
    obtain ⟨-, -, -, asleep, -, -⟩ :=
      writerLoopBetweenTicks (s.withSchedule (List.replicate n (.writerTurn p) ++ later)) p
    have hrest := ih (s := s.withSchedule (List.replicate n (.writerTurn p) ++ later)) rfl hp hw
    exact (run_succ ((step_cons hs).trans (asleep w hp hw))).trans hrest

/-- In ErrorBackoff W sleeps for some time (R7, R120), and the turns that were to come change
nothing. -/
theorem run_enterBackoff {n : Nat} {p : Patterns} {later : List Event} (hcfg : s.cfg.wf)
    (hs : s.schedule = List.replicate n (.writerTurn p) ++ later) :
    run n (enterBackoff s) = .next ((enterBackoff s).withSchedule later) := by
  obtain ⟨-, -, hbackoff⟩ := hcfg
  have hasleep : s.now.value < (s.now.add s.cfg.backoffS).value := by
    rw [Seconds.add_value]
    linarith
  exact run_asleep (s := enterBackoff s) hs rfl hasleep

/-- The state right after a command of a tick: BANK, K and the reply are as given, and the rest is
as it was, but for the bus and W's turn. -/
structure AfterCommand (s : State) (es : List Event) (m : Memory) (k : BitVec 6) (r : Reply)
    (u : State) : Prop where
  schedule : u.schedule = es
  cfg : u.cfg = s.cfg
  now : u.now = s.now
  bank : u.bank = m
  k : u.k = k
  wReply : u.wReply = r
  clients : u.clients = s.clients
  loop : u.loop = s.loop

/-- W's turn inside a tick: the command's effect, and then what W does with its status (R97). -/
theorem step_ticking {p : Patterns} {es : List Event} {elapsed : Seconds} {x : TickStep}
    {rest : List TickStep} {words : List Word} (hs : s.schedule = .writerTurn p :: es)
    (hp : s.phase = .ticking elapsed (x :: rest) words) (hw : words.length ≤ 65535) :
    ∃ m k r u, TickEffect s words x m k r ∧ AfterCommand s es m k r u ∧
      step s = .next (afterTickStep elapsed rest u) := by
  obtain ⟨m, k, r, heffect, hissue⟩ := issue_tickStep (s.withSchedule es) (x := x) (words := words)
    (x.instr_wf _ hw)
  refine ⟨m, k, r,
    ((((s.withSchedule es).withBus (x.issue s.cfg.order words)).withBank m).withK k).withReply
      .writer r, heffect.of_withSchedule, ⟨rfl, rfl, rfl, rfl, rfl, rfl, rfl, rfl⟩, ?_⟩
  have hp' : (s.withSchedule es).phase = .ticking elapsed (x :: rest) words := hp
  rw [step_cons hs]
  simp only [runEvent, writerTurn, hp', tickTurn, hissue]
  rfl

/-- A command that succeeds leaves its outcome, and returns no more than four words. -/
theorem TickEffect.outcome_of_ok {words : List Word} {x : TickStep} {m : Memory} {k : BitVec 6}
    {r : Reply} (h : TickEffect s words x m k r) (hok : r.status = some .ok) :
    x.outcome s.cfg words s.bank s.k = some (m, k, r.wordsOf) ∧ r.wordsOf.length ≤ 65535 := by
  cases h with
  | counters hn => exact ⟨if_pos hn, Nat.zero_le _⟩
  | encode32 v => exact ⟨rfl, (encF32_length _ v).trans_le (by decide)⟩
  | encode64 v => exact ⟨rfl, (encF64_length _ v).trans_le (by decide)⟩
  | write a hn => exact ⟨if_pos hn, Nat.zero_le _⟩
  | countersFail => cases hok
  | writeFails => cases hok

/-- A command that fails has no outcome and leaves BANK and K. -/
theorem TickEffect.outcome_of_failed {words : List Word} {x : TickStep} {m : Memory} {k : BitVec 6}
    {r : Reply} (h : TickEffect s words x m k r) (hne : r.status ≠ some .ok) :
    x.outcome s.cfg words s.bank s.k = none ∧ m = s.bank ∧ k = s.k := by
  cases h with
  | countersFail hn => exact ⟨if_neg (Nat.not_le.mpr hn), rfl, rfl⟩
  | writeFails a hn => exact ⟨if_neg (Nat.not_le.mpr hn), rfl, rfl⟩
  | _ => exact absurd rfl hne

theorem afterTickStep_done {elapsed : Seconds} (hok : s.wReply.status = some .ok) :
    afterTickStep elapsed [] s = endTick s := if_pos hok

theorem afterTickStep_more {elapsed : Seconds} {y : TickStep} {rest : List TickStep}
    (hok : s.wReply.status = some .ok) : afterTickStep elapsed (y :: rest) s =
      s.withPhase (.ticking elapsed (y :: rest) s.wReply.wordsOf) := if_pos hok

theorem afterTickStep_failed {elapsed : Seconds} {rest : List TickStep}
    (hne : s.wReply.status ≠ some .ok) : afterTickStep elapsed rest s = enterBackoff s := if_neg hne

/-- The turns of W through a tick, one for each command (R97, R98, R119, R120): the command fails
and the turns that are left find W asleep, or it was the last one, or the tick goes on. -/
theorem run_ticking {s : State} {p : Patterns} {later : List Event} {elapsed : Seconds}
    (x : TickStep) (rest : List TickStep) (words : List Word) (hcfg : s.cfg.wf)
    (hloop : s.loop = .running) (hp : s.phase = .ticking elapsed (x :: rest) words)
    (hw : words.length ≤ 65535)
    (hs : s.schedule = List.replicate (rest.length + 1) (.writerTurn p) ++ later) :
    ∃ t m k ok, tickOutcome s.cfg (x :: rest) words s.bank s.k = (m, k, ok) ∧
      run (rest.length + 1) s = .next t ∧ SleepsAfter s later m k ok t := by
  obtain ⟨m, k, r, u, heffect, hu, hstep⟩ := step_ticking hs hp hw
  obtain ⟨hsched, hucfg, hnow, hbank, hk, rfl, hclients, huloop⟩ := hu
  by_cases hok : u.wReply.status = some .ok
  · obtain ⟨houtcome, hwords⟩ := heffect.outcome_of_ok hok
    cases rest with
    | nil =>
      rw [afterTickStep_done hok] at hstep
      refine ⟨endTick u, m, k, true, by simp only [tickOutcome, houtcome], run_succ hstep, hsched,
        hucfg, hnow, hbank, hk, hclients, huloop.trans hloop, _, rfl, ?_⟩
      rw [Seconds.add_value, hnow, hucfg]
      rfl
    | cons y rest =>
      rw [afterTickStep_more hok] at hstep
      obtain ⟨t, m', k', ok, htick, hrun, hsleep⟩ := run_ticking
        (s := u.withPhase (.ticking elapsed (y :: rest) u.wReply.wordsOf)) y rest u.wReply.wordsOf
        (by rwa [State.withPhase_cfg, hucfg]) (huloop.trans hloop) rfl hwords hsched
      rw [State.withPhase_cfg, hucfg, State.withPhase_bank, hbank, State.withPhase_k, hk] at htick
      exact ⟨t, m', k', ok, by simpa only [tickOutcome, houtcome] using htick,
        (run_succ hstep).trans hrun, hsleep.congr hucfg hnow hclients⟩
  · obtain ⟨houtcome, rfl, rfl⟩ := heffect.outcome_of_failed hok
    rw [afterTickStep_failed hok] at hstep
    refine ⟨(enterBackoff u).withSchedule later, s.bank, s.k, false,
      by simp only [tickOutcome, houtcome], (run_succ hstep).trans
        (run_enterBackoff (hucfg ▸ hcfg) hsched), rfl, hucfg, hnow, hbank, hk, hclients, rfl, _,
      rfl, ?_⟩
    rw [Seconds.add_value, hnow, hucfg]
    rfl
termination_by rest.length

/-! ### The five batches -/

/-- A batch that is written if it lies inside the `n` words. -/
def writeInside (n start : Nat) (ws : List Word) (m : Memory) : Memory :=
  if start + ws.length ≤ n then memWrite m start ws else m

/-- What a tick with patterns `p` leaves in BANK: of its five batches those inside the bank (R97,
D16). -/
def tickBank (c : Cfg) (p : Patterns) (k : Nat) (m : Memory) : Memory :=
  writeInside c.n 34 (encF64 p.triangle c.order) <| writeInside c.n 30 (encF64 p.ramp c.order) <|
    writeInside c.n 22 (encF32 p.cosine c.order) <| writeInside c.n 20 (encF32 p.sine c.order) <|
      writeInside c.n 0 (counters k) m

/-- A float32 of a tick: two commands, the second of which writes the two words at `a` (R95). -/
theorem tickOutcome_pubf32 (c : Cfg) (a : Nat) (v : Bits32) (rest : List TickStep)
    (words : List Word) (m : Memory) (k : BitVec 6) (ha : a < 65536) :
    tickOutcome c (pubf32 a v ++ rest) words m k =
      if a + 2 ≤ c.n then tickOutcome c rest [] (writeInside c.n a (encF32 v c.order) m) k
      else (m, k, false) := by
  have haddr : (BitVec.ofNat 16 a).toNat = a := Nat.mod_eq_of_lt ha
  by_cases hn : a + 2 ≤ c.n <;>
    simp [pubf32, tickOutcome, TickStep.outcome, writeInside, haddr, hn]

/-- A float64 of a tick (R96). -/
theorem tickOutcome_pubf64 (c : Cfg) (a : Nat) (v : Bits64) (rest : List TickStep)
    (words : List Word) (m : Memory) (k : BitVec 6) (ha : a < 65536) :
    tickOutcome c (pubf64 a v ++ rest) words m k =
      if a + 4 ≤ c.n then tickOutcome c rest [] (writeInside c.n a (encF64 v c.order) m) k
      else (m, k, false) := by
  have haddr : (BitVec.ofNat 16 a).toNat = a := Nat.mod_eq_of_lt ha
  by_cases hn : a + 4 ≤ c.n <;>
    simp [pubf64, tickOutcome, TickStep.outcome, writeInside, haddr, hn]

/-- The counters of a tick (R97). -/
theorem tickOutcome_counters (c : Cfg) (rest : List TickStep) (words : List Word) (m : Memory)
    (k : BitVec 6) :
    tickOutcome c (.counters :: rest) words m k =
      if 10 ≤ c.n then
        tickOutcome c rest [] (writeInside c.n 0 (counters k.toNat) m) (nextTickIndex k)
      else (m, k, false) := by
  by_cases hn : 10 ≤ c.n <;> simp [tickOutcome, TickStep.outcome, writeInside, hn]

/-! A batch that does not fit is not written. -/

theorem writeInside_counters_of_lt {n start : Nat} (h : n < start + 10) (k : Nat) (m : Memory) :
    writeInside n start (counters k) m = m := by
  rw [writeInside, counters_length, if_neg (Nat.not_le.mpr h)]

theorem writeInside_encF32_of_lt {n start : Nat} (h : n < start + 2) (v : Bits32) (o : Order)
    (m : Memory) : writeInside n start (encF32 v o) m = m := by
  rw [writeInside, encF32_length, if_neg (Nat.not_le.mpr h)]

theorem writeInside_encF64_of_lt {n start : Nat} (h : n < start + 4) (v : Bits64) (o : Order)
    (m : Memory) : writeInside n start (encF64 v o) m = m := by
  rw [writeInside, encF64_length, if_neg (Nat.not_le.mpr h)]

/-- The batches of a tick rise, so the ones before the first that does not fit are those that fit
(D16). -/
theorem tickOutcome_tick (c : Cfg) (p : Patterns) (m : Memory) (k : BitVec 6) :
    tickOutcome c (tick p) [] m k = (tickBank c p k.toNat m,
      if 10 ≤ c.n then nextTickIndex k else k, decide (38 ≤ c.n)) := by
  have batches : tick p = .counters :: (pubf32 20 p.sine ++ (pubf32 22 p.cosine ++
      (pubf64 30 p.ramp ++ (pubf64 34 p.triangle ++ [])))) := rfl
  rw [batches, tickOutcome_counters, tickOutcome_pubf32 _ _ _ _ _ _ _ (by decide),
    tickOutcome_pubf32 _ _ _ _ _ _ _ (by decide), tickOutcome_pubf64 _ _ _ _ _ _ _ (by decide),
    tickOutcome_pubf64 _ _ _ _ _ _ _ (by decide), tickOutcome, tickBank]
  split_ifs with h10 h22 h24 h34 h38
  case pos => rw [decide_eq_true h38]
  all_goals
    have hshort : ¬ 38 ≤ c.n := by omega
    rw [decide_eq_false hshort]
    simp (disch := omega) only [writeInside_counters_of_lt, writeInside_encF32_of_lt,
      writeInside_encF64_of_lt]

/-! ### Reading what a tick left -/

theorem writeInside_read_outside {n start a : Nat} {ws : List Word} (m : Memory)
    (h : a < start ∨ start + ws.length ≤ a) : (writeInside n start ws m).read a = m.read a := by
  unfold writeInside
  split
  · exact memWrite_read_outside m start ws h
  · rfl

theorem memRead_writeInside_same {n start count : Nat} {ws : List Word} (m : Memory)
    (hl : ws.length = count) : memRead (writeInside n start ws m) start count =
      if start + count ≤ n then ws else memRead m start count := by
  subst hl
  unfold writeInside
  split
  · exact memRead_memWrite m start ws
  · rfl

theorem memRead_writeInside_disjoint {n a b count : Nat} {ws : List Word} (m : Memory)
    (h : b + count ≤ a ∨ a + ws.length ≤ b) :
    memRead (writeInside n a ws m) b count = memRead m b count :=
  memRead_congr fun _ _ _ => writeInside_read_outside m (by omega)

variable (c : Cfg) (p : Patterns) (k : Nat) (m : Memory)

theorem memRead_tickBank_counters : memRead (tickBank c p k m) 0 10 =
    if 10 ≤ c.n then counters k else memRead m 0 10 := by
  rw [tickBank, memRead_writeInside_disjoint _ (by simp), memRead_writeInside_disjoint _ (by simp),
    memRead_writeInside_disjoint _ (by simp), memRead_writeInside_disjoint _ (by simp),
    memRead_writeInside_same _ (counters_length k)]

theorem memRead_tickBank_sine : memRead (tickBank c p k m) 20 2 =
    if 22 ≤ c.n then encF32 p.sine c.order else memRead m 20 2 := by
  rw [tickBank, memRead_writeInside_disjoint _ (by simp), memRead_writeInside_disjoint _ (by simp),
    memRead_writeInside_disjoint _ (by simp), memRead_writeInside_same _ (encF32_length _ _),
    memRead_writeInside_disjoint _ (by simp)]

theorem memRead_tickBank_cosine : memRead (tickBank c p k m) 22 2 =
    if 24 ≤ c.n then encF32 p.cosine c.order else memRead m 22 2 := by
  rw [tickBank, memRead_writeInside_disjoint _ (by simp), memRead_writeInside_disjoint _ (by simp),
    memRead_writeInside_same _ (encF32_length _ _), memRead_writeInside_disjoint _ (by simp),
    memRead_writeInside_disjoint _ (by simp)]

theorem memRead_tickBank_ramp : memRead (tickBank c p k m) 30 4 =
    if 34 ≤ c.n then encF64 p.ramp c.order else memRead m 30 4 := by
  rw [tickBank, memRead_writeInside_disjoint _ (by simp),
    memRead_writeInside_same _ (encF64_length _ _), memRead_writeInside_disjoint _ (by simp),
    memRead_writeInside_disjoint _ (by simp), memRead_writeInside_disjoint _ (by simp)]

theorem memRead_tickBank_triangle : memRead (tickBank c p k m) 34 4 =
    if 38 ≤ c.n then encF64 p.triangle c.order else memRead m 34 4 := by
  rw [tickBank, memRead_writeInside_same _ (encF64_length _ _),
    memRead_writeInside_disjoint _ (by simp), memRead_writeInside_disjoint _ (by simp),
    memRead_writeInside_disjoint _ (by simp), memRead_writeInside_disjoint _ (by simp)]

/-- R18: a tick writes no register of no logical value. -/
theorem tickBank_read_unmapped {a : Nat} (ha : isMapped a = false) :
    (tickBank c p k m).read a = m.read a := by
  have hout : ¬ (a < 10 ∨ (20 ≤ a ∧ a < 24) ∨ (30 ≤ a ∧ a < 38)) := by
    rw [← isMapped_iff, ha]
    exact Bool.false_ne_true
  rw [tickBank, writeInside_read_outside _ (by rw [encF64_length]; omega),
    writeInside_read_outside _ (by rw [encF64_length]; omega),
    writeInside_read_outside _ (by rw [encF32_length]; omega),
    writeInside_read_outside _ (by rw [encF32_length]; omega),
    writeInside_read_outside _ (by rw [counters_length]; omega)]

variable {c p k m}

/-- One register of the counters' range. -/
theorem memRead_one_of_counters {n : Memory} {i : Nat} (hi : i < 10)
    (h : memRead n 0 10 = counters k) : memRead n i 1 = [(counters k).getD i 0#16] := by
  rw [← h, memRead_getD n 0 hi, Nat.zero_add]
  rfl

/-- The range of each logical value of a tick that fitted holds the value's words (R15, R41). -/
theorem memRead_tickBank_value (hn : 38 ≤ c.n) :
    ∀ v ∈ tickValues k p, memRead (tickBank c p k m) v.start v.length = v.words c.order := by
  have hctr : memRead (tickBank c p k m) 0 10 = counters k := by
    rw [memRead_tickBank_counters, if_pos (by omega)]
  intro v hv
  simp only [tickValues, List.mem_append, List.mem_map, List.mem_cons, List.not_mem_nil, or_false]
    at hv
  obtain ⟨⟨w, i⟩, hw, rfl⟩ | rfl | rfl | rfl | rfl := hv
  · obtain ⟨-, hi, hval⟩ := List.mem_zipIdx hw
    have hi : i < 10 := by simpa [ctrAddr] using hi
    refine (memRead_one_of_counters hi hctr).trans ?_
    simp [LogicalValue.words, TaggedValue.words, encU16, hval, ctrAddr, List.getD, hi]
  · exact (memRead_tickBank_sine c p k m).trans (if_pos (by omega))
  · exact (memRead_tickBank_cosine c p k m).trans (if_pos (by omega))
  · exact (memRead_tickBank_ramp c p k m).trans (if_pos (by omega))
  · exact (memRead_tickBank_triangle c p k m).trans (if_pos (by omega))

/-! ### A whole tick -/

/-- Ten turns of W from a boundary (R97, R98): one begins the tick and nine are its commands. -/
theorem run_tick {later : List Event} (hcfg : s.cfg.wf) (hp : s.phase = .boundary)
    (hstop : s.stop = false) (hloop : s.loop = .running)
    (hs : s.schedule = List.replicate 10 (.writerTurn p) ++ later) :
    ∃ t, run 10 s = .next t ∧ SleepsAfter s later (tickBank s.cfg p s.k.toNat s.bank)
      (if 10 ≤ s.cfg.n then nextTickIndex s.k else s.k) (decide (38 ≤ s.cfg.n)) t := by
  have hstep : step s =
      .next (beginTick p (s.withSchedule (List.replicate 9 (.writerTurn p) ++ later))) := by
    rw [step_cons hs]
    simp only [runEvent, writerTurn, State.withSchedule_phase, hp, State.withSchedule_stop, hstop]
    rfl
  obtain ⟨t, m, k, ok, htick, hrun, hsleep⟩ := run_ticking
    (s := beginTick p (s.withSchedule (List.replicate 9 (.writerTurn p) ++ later))) (p := p)
    (later := later) .counters _ [] hcfg hloop rfl (Nat.zero_le _) rfl
  have houtcome := htick.symm.trans (tickOutcome_tick s.cfg p s.bank s.k)
  rw [Prod.mk.injEq, Prod.mk.injEq] at houtcome
  obtain ⟨rfl, rfl, rfl⟩ := houtcome
  exact ⟨t, (run_succ hstep).trans hrun, hsleep.congr rfl rfl rfl⟩

/-- Settles O52: BANK is `tickBank`, read range by range, and W sleeps as `SleepsAfter` says. -/
theorem tickPublishesWhatFits : Obligations.TickPublishesWhatFits := by
  intro s p later hcfg hp hstop hloop hs
  obtain ⟨t, hrun, hsched, htcfg, hnow, hbank, hk, -, htloop, wakeAt, hphase, hwake⟩ :=
    run_tick hcfg hp hstop hloop hs
  refine ⟨t, hrun, hsched, htcfg, hnow, ?tickIndex, ?_, ?_, ?_, ?_, ?_, fun a ha => ?_,
    fun hn => ?_, wakeAt, hphase, ?sleep⟩
  case tickIndex =>
    rw [hk]
    split
    · exact nextTickIndex_toNat s.k
    · rfl
  case sleep =>
    by_cases hn : 38 ≤ s.cfg.n <;> simpa [hn] using And.intro htloop hwake
  all_goals rw [hbank]
  · exact memRead_tickBank_counters _ _ _ _
  · exact memRead_tickBank_sine _ _ _ _
  · exact memRead_tickBank_cosine _ _ _ _
  · exact memRead_tickBank_ramp _ _ _ _
  · exact memRead_tickBank_triangle _ _ _ _
  · exact tickBank_read_unmapped _ _ _ _ ha
  · exact memRead_tickBank_value hn

/-! ### End to end -/

/-- The words of a span inside the first 38, as UNPK finds them in the slice (R91, R107). -/
theorem unpack_memRead (o : Order) (n : Memory) : unpack o (memRead n 0 38) =
    { ctr := memRead n 0 10
      sine := decF32 (n.read 20) (n.read 21) o
      cosine := decF32 (n.read 22) (n.read 23) o
      ramp := decF64 (n.read 30) (n.read 31) (n.read 32) (n.read 33) o
      triangle := decF64 (n.read 34) (n.read 35) (n.read 36) (n.read 37) o } := by
  rfl

/-- UNPK of the slice of a bank that holds a whole tick, under the writer's order, gives back the
counters and the patterns (R71, R91). -/
theorem unpack_tickBank (hn : 38 ≤ c.n) : unpack c.order (memRead (tickBank c p k m) 0 38) =
    { ctr := counters k, sine := p.sine, cosine := p.cosine, ramp := p.ramp,
      triangle := p.triangle } := by
  have hctr := (memRead_tickBank_counters c p k m).trans (if_pos (by omega))
  have hsine := (memRead_tickBank_sine c p k m).trans (if_pos (by omega))
  have hcosine := (memRead_tickBank_cosine c p k m).trans (if_pos (by omega))
  have hramp := (memRead_tickBank_ramp c p k m).trans (if_pos (by omega))
  have htriangle := (memRead_tickBank_triangle c p k m).trans (if_pos (by omega))
  rw [unpack_memRead, Fields.mk.injEq]
  exact ⟨hctr, ((encF32_eq_iff _ _ _ _).mp hsine.symm).symm,
    ((encF32_eq_iff _ _ _ _).mp hcosine.symm).symm,
    ((encF64_eq_iff _ _ _ _ _ _).mp hramp.symm).symm,
    ((encF64_eq_iff _ _ _ _ _ _).mp htriangle.symm).symm⟩

/-- Settles O59: the tick leaves `tickBank` and the client as it was, and the client then unpacks
the bank (O57). -/
theorem clientReadsWhatTheTickPublished : Obligations.ClientReadsWhatTheTickPublished := by
  intro s p c j hcfg hn hp hstop hloop hreq horder hs
  obtain ⟨t, hrun, hsched, htcfg, -, hbank, -, hclients, -, -⟩ := run_tick hcfg hp hstop hloop hs
  have hclient : t.client c = s.client c := by rw [State.client, State.client, hclients]
  obtain ⟨u, hu, -, -, hreply⟩ := clientReadReturnsTheBank c j 38 t [] (htcfg ▸ hn)
    (hclient ▸ hreq) hsched
  refine ⟨u, (run_add hrun).trans hu, hreply.trans ?_⟩
  rw [if_pos le_rfl, hclient, horder, hbank, unpack_tickBank hn]

end Sys2Proof.Machine
